-- ==== Sys2Proof/Word.lean ====
section
/-! DEFINITION. The word types of PCMQ: 32-bit registers (R6), 8-bit BUF bytes, 64-bit binary64 encodings (R6, R11)
and 16-bit PCM samples (R3). -/

namespace Sys2Proof

/-- A register value (R6: "Register width | 32 bits"). -/
abbrev Word := BitVec 32

/-- One byte of BUF (R44). -/
abbrev Byte := BitVec 8

/-- The encoding of a binary64 value, or the data of the widest host access (R11, R74). -/
abbrev QWord := BitVec 64

/-- A PCM sample: 16-bit two's complement (R3, R47). -/
abbrev Pcm := BitVec 16

end Sys2Proof
end

