-- ==== Sys2Proof/Config.lean ====
section
/-! DEFINITION. The fixed parameters of PCMQ (R6, R33) and the size of BUF in the state after power-on (R7). -/

namespace Sys2Proof.Config

/-- Bits per PCM sample (R3, R6). -/
abbrev bits : Nat := 16

/-- `2^(BITS-1) - 1`, the scale of the quantizer (R6). -/
abbrev maxSampleValue : Nat := 32767

/-- Bytes per PCM sample (R6, R71). -/
abbrev sampleBytes : Nat := 2

/-- Bytes of the WAV header (R6, R71). -/
abbrev hdrBytes : Nat := 44

/-- Bytes per real sample in BUF (R6, R71). -/
abbrev elemBytes : Nat := 8

/-- Bytes per MERGE descriptor (R71, R73). -/
abbrev descBytes : Nat := 8

/-- Reset value of RATE (R6, R31). -/
abbrev defaultRate : Word := 44100

/-- Reset value of NCH (R6, R30). -/
abbrev defaultNch : BitVec 16 := 2

/-- The constant register CAPS (R33). -/
abbrev caps : Word := 0x00002C10

/-- BUF_BYTES of `State.reset`.
DESIGN CHOICE (log 1): R7 leaves BUF_BYTES open; it is a field of State that no step changes, every statement is about
every value of it, and 4096 is only the value the spec's test vectors assume, which `State.reset` takes. -/
def bufBytes : Word := 4096

end Sys2Proof.Config
end

