-- ==== Sys2Proof/Syntax.lean ====
section
/-! DEFINITION. The commands of PCMQ: one constructor per row of the opcode map (R66). A command word holds no operand
(R64, R70): the operands are registers, so no constructor has an argument. -/

namespace Sys2Proof

/-- The eight commands of R66. -/
inductive Instr where
  /-- R93 -/
  | nop
  /-- R78 -/
  | merge
  /-- R79 -/
  | separate
  /-- R84 -/
  | qenc
  /-- R85 -/
  | qdec
  /-- R89 -/
  | hbuild
  /-- R90 -/
  | assemble
  /-- R91 -/
  | hparse
deriving DecidableEq, Repr

end Sys2Proof
end

