-- ==== Sys2Proof/WellFormed.lean ====
section
/-! DEFINITION. Well-formedness of what a claim is about: a command, and the one open parameter BUF_BYTES (R7). -/

namespace Sys2Proof

/-- A command has no immediate and no operand field (R64, R70), so there is nothing of it that could be ill-formed. -/
def Instr.wf : Instr → Bool
  | .nop => true
  | .merge => true
  | .separate => true
  | .qenc => true
  | .qdec => true
  | .hbuild => true
  | .assemble => true
  | .hparse => true

/-- The bound of R7: "64 <= BUF_BYTES <= 2^31". -/
def bufBytesWf (n : Nat) : Bool := decide (64 ≤ n) && decide (n ≤ 2 ^ 31)

end Sys2Proof
end

