-- ==== Sys2Proof/Decode.lean ====
section
/-! DEFINITION. The command word (R65), its decoder (R67, total) and its encoder (R66). -/

namespace Sys2Proof

/-- Field OPC, bits 7:0 (R65). -/
def opc (w : Word) : BitVec 8 := w.extractLsb' 0 8

/-- Field RSVD, bits 31:8 (R65). -/
def rsvd (w : Word) : BitVec 24 := w.extractLsb' 8 24

/-- Why a command word is illegal (R68); either way the command ends in ILLEGAL_CMD. -/
inductive IllegalWord where
  /-- "Every word with RSVD != 0 is illegal" -/
  | reservedBits
  /-- "and so is every word with OPC in 0x08 to 0xFF" -/
  | reservedOpcode
deriving DecidableEq, Repr

/-- What the decoder answers on a word. -/
inductive Decoded where
  | instr (i : Instr)
  | illegal (why : IllegalWord)
deriving DecidableEq, Repr

/-- The opcode map (R66, R67). -/
def decodeOpc (o : BitVec 8) : Decoded :=
  match o.toNat with
  | 0 => .instr .nop
  | 1 => .instr .merge
  | 2 => .instr .separate
  | 3 => .instr .qenc
  | 4 => .instr .qdec
  | 5 => .instr .hbuild
  | 6 => .instr .assemble
  | 7 => .instr .hparse
  | _ => .illegal .reservedOpcode

/-- The decoder of R67: total on every 32-bit word. -/
def decode (w : Word) : Decoded :=
  if rsvd w ≠ 0 then .illegal .reservedBits else decodeOpc (opc w)

/-- The opcode of a command (R66). -/
def opcodeOf : Instr → BitVec 8
  | .nop => 0x00
  | .merge => 0x01
  | .separate => 0x02
  | .qenc => 0x03
  | .qdec => 0x04
  | .hbuild => 0x05
  | .assemble => 0x06
  | .hparse => 0x07

/-- The command word of a command: RSVD = 0, OPC its opcode (R65, R66). -/
def encode (i : Instr) : Word := (0#24 ++ opcodeOf i : BitVec (24 + 8))

/-- The command the decoder reads from an instruction of `nbits` bits numbered as the opcode table numbers them.
Every command word is 32 bits (R69). -/
def decodeTableWord (nbits w : Nat) : Option Instr :=
  let v := w % 2 ^ nbits
  if 2 ^ 32 ≤ v then none
  else match decode (BitVec.ofNat 32 v) with
    | .instr i => some i
    | .illegal _ => none

end Sys2Proof
end

