-- ==== Sys2Proof/Machine/State.lean ====
section
/-! DEFINITION. The state of PCMQ (R17), its reset value (R19, R41, R111), and the reasons a step can stop. -/

namespace Sys2Proof.Machine

/-- The device error codes of R100. Codes 9 to 15 have no constructor: "never produced" (R26). -/
inductive ErrCode where
  | none
  | length
  | format
  | illegalCmd
  | badOperand
  | range
  | overlap
  | nonfinite
  | fieldOverflow
deriving DecidableEq, Repr

/-- The fields of STATUS (R21). Its reserved bits read as 0 and ignore writes (R37), so they are not stored. -/
structure Status where
  busy : Bool
  done : Bool
  err : Bool
  sticky : Bool
  errcode : ErrCode
deriving DecidableEq, Repr

/-- The kinds of model fault (R107). -/
inductive FaultKind where
  | uninitRead
  | busError
  | hazard
deriving DecidableEq, Repr

/-- The fault record, a set of model-fault kinds (R39): one membership bit for each kind of R107. -/
structure FaultRecord where
  uninitRead : Bool
  busError : Bool
  hazard : Bool
deriving DecidableEq, Repr

/-- BUF (R44): the written bytes, by address. An address that is not listed is unwritten (R58) and reads as no value. -/
abbrev Memory := List Host.Cell

/-- The canonical form: addresses strictly rising. An unlisted address reads as no value at all, so no listed entry can
equal what an unlisted address reads as. -/
abbrev Memory.wf (m : Memory) : Prop := m.Pairwise (fun x y => x.1 < y.1)

/-- The registers of R19. `hdr k` is HDRk. -/
inductive Reg where
  | cmd
  | status
  | ctrl
  | src
  | src2
  | dst
  | count
  | nch
  | rate
  | res0
  | res1
  | caps
  | bufsize
  | hdr (k : Fin 13)
deriving DecidableEq, Repr

/-- The two address spaces (R42). -/
inductive Space where
  | reg
  | buf
deriving DecidableEq, Repr

/-- The widths of a host transaction: 1, 2, 4 or 8 bytes (R74). -/
inductive Width where
  | w1
  | w2
  | w4
  | w8
deriving DecidableEq, Repr

/-- A host transaction (R74). `loc` is a REG offset or a BUF address; the data of a read is what it returns. -/
inductive Access where
  | read (space : Space) (loc : Nat) (width : Width)
  | write (space : Space) (loc : Nat) (width : Width) (data : QWord)
deriving DecidableEq, Repr

/-- One entry of the host's program: a transaction, or the polling loop `wait` (R76). -/
inductive HostOp where
  | access (a : Access)
  | wait
deriving DecidableEq, Repr

/-- Whose turn it is: the host, the engine (R16), or the platform asserting reset (R110). -/
inductive Turn where
  | host
  | engine
  | reset
deriving DecidableEq, Repr

/-- Everything a successful command writes, known before the first write (R95, R103): one BUF range (no byte for a
command that stores nothing), the HDR registers (HPARSE only), RES0 and RES1. -/
structure Effect where
  dst : Nat
  bytes : List Byte
  hdr : Option (Vector Word 13)
  res0 : Nat
  res1 : Nat
deriving DecidableEq, Repr

/-- How a command ends (R12, R99). -/
inductive CmdResult where
  | complete (e : Effect)
  | error (code : ErrCode)
  | modelFault (kind : FaultKind)
deriving DecidableEq, Repr

/-- The state of PCMQ. The first part is R17's; the last three fields are the model's own (logs 3, 4): the host's
remaining accesses, the order in which the agents move, and what the last host access returned. -/
structure State where
  /-- CMD (R20) -/
  cmd : Word
  /-- STATUS (R21), the engine's busy state with it (R22) -/
  status : Status
  /-- CTRL.STRICT (R27); the other bits of CTRL read as 0 -/
  strict : Bool
  /-- SRC (R28) -/
  src : Word
  /-- SRC2 (R28) -/
  src2 : Word
  /-- DST (R28) -/
  dst : Word
  /-- COUNT (R29) -/
  count : Word
  /-- NCH bits 15:0 (R30); bits 31:16 read as 0 -/
  nch : BitVec 16
  /-- RATE (R31) -/
  rate : Word
  /-- RES0 (R32) -/
  res0 : Word
  /-- RES1 (R32) -/
  res1 : Word
  /-- BUFSIZE (R34): the parameter BUF_BYTES (R7) -/
  bufSize : Word
  /-- HDR0 to HDR12 (R35) -/
  hdr : Vector Word 13
  /-- BUF (R44, R58) -/
  buf : Memory
  /-- the fault record (R39) -/
  faults : FaultRecord
  /-- the accesses the host has still to make (R18: "The host's sequence of accesses is the only program") -/
  program : List HostOp
  /-- the turns still fixed; when it is empty the engine moves if it can, else the host -/
  schedule : List Turn
  /-- the value the last host access returned, if it returned one (R49, R50) -/
  returned : Option QWord
deriving DecidableEq, Repr

/-- No step of PCMQ stops with a fault, so this type has no constructor. What the spec calls a model fault is recorded in
the fault record, which is part of the state (R17, R39, R107), and the machine stands where R95 and R107 say: that is a
next state (log 2). -/
inductive Fault where
deriving DecidableEq, Repr

/-- Why a step is refused. -/
inductive Refusal where
  /-- An arm of `exec` whose instruction has no meaning yet. Safe. No arm raises it: every command has its meaning. -/
  | notModelled (mnemonic : String)
deriving DecidableEq, Repr

/-- STATUS after reset: all fields 0 (R110). -/
abbrev Status.cleared : Status :=
  { busy := false, done := false, err := false, sticky := false, errcode := .none }

/-- The empty fault record (R39: "It starts empty at the first reset"). -/
abbrev FaultRecord.empty : FaultRecord := { uninitRead := false, busError := false, hazard := false }

/-- The state right after the first reset of a PCMQ with BUF_BYTES = `size` (R19, R41, R111). -/
def State.resetWith (size : Word) : State where
  cmd := 0
  status := Status.cleared
  strict := false
  src := 0
  src2 := 0
  dst := 0
  count := 0
  nch := Config.defaultNch
  rate := Config.defaultRate
  res0 := 0
  res1 := 0
  bufSize := size
  hdr := Vector.replicate 13 0
  buf := []
  faults := FaultRecord.empty
  program := []
  schedule := []
  returned := none

/-- The state right after the first reset, with the BUF_BYTES of log 1. -/
def State.reset : State := State.resetWith Config.bufBytes

end Sys2Proof.Machine
end

