-- ==== Sys2Proof/Machine/Flags.lean ====
section
/-! DEFINITION. The flags of PCMQ: STATUS as a word (R21), every rule that writes one of its fields (R22 to R26), and the
fault record's one update (R39). -/

namespace Sys2Proof.Machine

/-- The number of a device error (R100). -/
def ErrCode.code : ErrCode → BitVec 4
  | .none => 0
  | .length => 1
  | .format => 2
  | .illegalCmd => 3
  | .badOperand => 4
  | .range => 5
  | .overlap => 6
  | .nonfinite => 7
  | .fieldOverflow => 8

/-- STATUS as the host reads it (R21): ERRCODE in bits 11:8, STICKY 3, ERR 2, DONE 1, BUSY 0; the reserved bits 31:12 and
7:4 read as 0 (R37). -/
def Status.word (st : Status) : Word :=
  (0#20 ++ st.errcode.code ++ 0#4 ++ BitVec.ofBool st.sticky ++ BitVec.ofBool st.err ++ BitVec.ofBool st.done
    ++ BitVec.ofBool st.busy : BitVec (20 + 4 + 4 + 1 + 1 + 1 + 1))

/-- Issue (R94): BUSY 1, DONE 0, ERR 0, ERRCODE 0; STICKY is left unchanged (R25). -/
def Status.issue (st : Status) : Status :=
  { st with busy := true, done := false, err := false, errcode := .none }

/-- Successful completion (R95): BUSY 0, DONE 1, ERR 0, ERRCODE 0; STICKY is left unchanged (R25). -/
def Status.success (st : Status) : Status :=
  { st with busy := false, done := true, err := false, errcode := .none }

/-- Completion with a device error (R95): BUSY 0, DONE 1, ERR 1, ERRCODE the error's code, STICKY 1. -/
def Status.failure (st : Status) (e : ErrCode) : Status :=
  { st with busy := false, done := true, err := true, sticky := true, errcode := e }

/-- A host write of STATUS (R25, R36): bit 3 = 1 clears STICKY; nothing else of the word has an effect. -/
def Status.hostWrite (st : Status) (v : Word) : Status :=
  { st with sticky := st.sticky && !v.getLsbD 3 }

/-- A model fault adds its kind; nothing removes an entry (R39). -/
def FaultRecord.add (r : FaultRecord) : FaultKind → FaultRecord
  | .uninitRead => { r with uninitRead := true }
  | .busError => { r with busError := true }
  | .hazard => { r with hazard := true }

/-- Whether a kind is in the record. -/
def FaultRecord.has (r : FaultRecord) : FaultKind → Bool
  | .uninitRead => r.uninitRead
  | .busError => r.busError
  | .hazard => r.hazard

end Sys2Proof.Machine
end

