-- ==== Sys2Proof/Machine/Ops.lean ====
section
/-! DEFINITION. The named operations every rule uses: byte sequences (R9), BUF (R10, R58), the range primitives (R13),
the register file (R19), and the ends of a command (R12, R95): success, a device error, a model fault. -/

namespace Sys2Proof.Machine

/-! ### Byte sequences (R9) -/

/-- `le_N(v)`: the N-byte little-endian sequence of `v mod 2^(8N)`. -/
def leBytes : Nat → Nat → List Byte
  | 0, _ => []
  | n + 1, v => BitVec.ofNat 8 v :: leBytes n (v / 256)

/-- `from_le(bytes)`. -/
def fromLe : List Byte → Nat
  | [] => 0
  | b :: bs => b.toNat + 256 * fromLe bs

/-! ### BUF (R10, R44, R58) -/

/-- The value of one byte of BUF; `none` where it is unwritten (R58). -/
def Memory.read : Memory → Nat → Option Byte
  | [], _ => none
  | (k, b) :: m, a => if a = k then some b else Memory.read m a

/-- Write one byte of BUF, which makes it written (R58). -/
def Memory.write : Memory → Nat → Byte → Memory
  | [], a, v => [(a, v)]
  | (k, b) :: m, a, v =>
    if a < k then (a, v) :: (k, b) :: m
    else if a = k then (a, v) :: m
    else (k, b) :: Memory.write m a v

/-- The `n` bytes from address `a` on; `none` if any of them is unwritten. -/
def Memory.readBytes (m : Memory) : Nat → Nat → Option (List Byte)
  | _, 0 => some []
  | a, n + 1 =>
    match Memory.read m a, Memory.readBytes m (a + 1) n with
    | some b, some bs => some (b :: bs)
    | _, _ => none

/-- Write a byte sequence from address `a` on. -/
def Memory.writeBytes (m : Memory) : Nat → List Byte → Memory
  | _, [] => m
  | a, b :: bs => Memory.writeBytes (Memory.write m a b) (a + 1) bs

/-- `MemRead(addr, n)` (R10); `none` is `ModelFault(UNINIT_READ)`. -/
def Memory.memRead (m : Memory) (a n : Nat) : Option Nat :=
  (Memory.readBytes m a n).map fromLe

/-- `MemWrite(addr, n, v)` (R10). -/
def Memory.memWrite (m : Memory) (a n v : Nat) : Memory :=
  Memory.writeBytes m a (leBytes n v)

/-- `MemCopy(dst, src, n)` (R10): one read followed by one write; `none` where the read faults. -/
def Memory.memCopy (m : Memory) (dst src n : Nat) : Option Memory :=
  (Memory.memRead m src n).map (Memory.memWrite m dst n)

/-- `MemRead(addr, w)` at every address of a list, in order; `none` if one of the reads faults. -/
def Memory.readAll (m : Memory) (w : Nat) : List Nat → Option (List Nat)
  | [] => some []
  | a :: as =>
    match Memory.memRead m a w, Memory.readAll m w as with
    | some v, some vs => some (v :: vs)
    | _, _ => none

/-- The bytes of an array of `w`-byte elements, element 0 first. -/
def arrayBytes (w : Nat) (vs : List Nat) : List Byte :=
  vs.flatMap (leBytes w)

/-! ### Ranges (R13, R57): sums are mathematical integers -/

/-- `inBuf(a, n)` for a BUF of `size` bytes. -/
abbrev inBuf (size a n : Nat) : Prop := n = 0 ∨ a + n ≤ size

/-- `overlaps(a, n, b, m)`. -/
abbrev overlaps (a n b m : Nat) : Prop := 0 < n ∧ 0 < m ∧ a < b + m ∧ b < a + n

/-- BUF_BYTES (R7, R34). -/
def State.bufBytes (s : State) : Nat := s.bufSize.toNat

/-- `inBuf(a, n)` in the BUF of a state. -/
abbrev State.inBuf (s : State) (a n : Nat) : Prop := Machine.inBuf s.bufBytes a n

/-! ### The register file (R19) -/

/-- The offset of a register in the REG space (R19). -/
def Reg.offset : Reg → Nat
  | .cmd => 0x00
  | .status => 0x04
  | .ctrl => 0x08
  | .src => 0x0C
  | .src2 => 0x10
  | .dst => 0x14
  | .count => 0x18
  | .nch => 0x1C
  | .rate => 0x20
  | .res0 => 0x24
  | .res1 => 0x28
  | .caps => 0x2C
  | .bufsize => 0x30
  | .hdr k => 0x40 + 4 * k.val

/-- The register at an offset of the REG space; `none` where R19 assigns none, at a misaligned offset and at 0x100 or more
(R43, R49). -/
def Reg.ofOffset (off : Nat) : Option Reg :=
  if off % 4 ≠ 0 then none
  else match off / 4 with
    | 0 => some .cmd
    | 1 => some .status
    | 2 => some .ctrl
    | 3 => some .src
    | 4 => some .src2
    | 5 => some .dst
    | 6 => some .count
    | 7 => some .nch
    | 8 => some .rate
    | 9 => some .res0
    | 10 => some .res1
    | 11 => some .caps
    | 12 => some .bufsize
    | k => if h : 16 ≤ k ∧ k < 29 then some (.hdr ⟨k - 16, by omega⟩) else none

/-- The value of a register as the host reads it. Reserved bits read as 0 (R37); CAPS is a constant (R33). -/
def State.readReg (s : State) : Reg → Word
  | .cmd => s.cmd
  | .status => s.status.word
  | .ctrl => (0#31 ++ BitVec.ofBool s.strict : BitVec (31 + 1))
  | .src => s.src
  | .src2 => s.src2
  | .dst => s.dst
  | .count => s.count
  | .nch => s.nch.setWidth 32
  | .rate => s.rate
  | .res0 => s.res0
  | .res1 => s.res1
  | .caps => Config.caps
  | .bufsize => s.bufSize
  | .hdr k => s.hdr[k]

/-- Issue (R94): a write of CMD while BUSY = 0. -/
def State.issue (s : State) (w : Word) : State :=
  { s with cmd := w, status := s.status.issue }

/-- A host write of a register while BUSY = 0. Read-only registers and reserved bits ignore it (R36, R37). -/
def State.writeReg (s : State) (r : Reg) (v : Word) : State :=
  match r with
  | .cmd => s.issue v
  | .status => { s with status := s.status.hostWrite v }
  | .ctrl => { s with strict := v.getLsbD 0 }
  | .src => { s with src := v }
  | .src2 => { s with src2 := v }
  | .dst => { s with dst := v }
  | .count => { s with count := v }
  | .nch => { s with nch := v.extractLsb' 0 16 }
  | .rate => { s with rate := v }
  | .res0 => s
  | .res1 => s
  | .caps => s
  | .bufsize => s
  | .hdr _ => s

/-! ### The ends of a command (R12, R95, R99) -/

/-- `complete(r0, r1)` with the command's writes (R95, success). -/
def State.complete (s : State) (e : Effect) : State :=
  { s with
    buf := s.buf.writeBytes e.dst e.bytes
    hdr := e.hdr.getD s.hdr
    res0 := BitVec.ofNat 32 e.res0
    res1 := BitVec.ofNat 32 e.res1
    status := s.status.success }

/-- A device error (R95, R103): it changes only STATUS. PCMQ has no trap entry: no vector, no saved state, no mode (R104). -/
def State.deviceError (s : State) (e : ErrCode) : State :=
  { s with status := s.status.failure e }

/-- A model fault (R95, R107): its kind is added to the fault record and nothing else happens. -/
def State.modelFault (s : State) (k : FaultKind) : State :=
  { s with faults := s.faults.add k }

/-- The completion step's last part (R95). -/
def State.finish (s : State) : CmdResult → State
  | .complete e => s.complete e
  | .error c => s.deviceError c
  | .modelFault k => s.modelFault k

end Sys2Proof.Machine
end

