-- ==== Sys2Proof/Machine/Operands.lean ====
section
/-! DEFINITION. The operands of the commands (R70) and the data formats they have in BUF (R47, R48, R72, R73). Every
operand is a register read as an unsigned integer (R70); no command word holds one. -/

namespace Sys2Proof.Machine

/-- x[SRC] -/
def State.srcVal (s : State) : Nat := s.src.toNat

/-- x[SRC2] -/
def State.src2Val (s : State) : Nat := s.src2.toNat

/-- x[DST] -/
def State.dstVal (s : State) : Nat := s.dst.toNat

/-- x[COUNT] -/
def State.countVal (s : State) : Nat := s.count.toNat

/-- `zext_32(x[NCH][15:0])` -/
def State.nchVal (s : State) : Nat := s.nch.toNat

/-- x[RATE] -/
def State.rateVal (s : State) : Nat := s.rate.toNat

/-- The addresses of `n` consecutive `w`-byte elements from `base` on (R47, R48). -/
def elemAddrs (base w n : Nat) : List Nat :=
  (List.range n).map (fun k => base + w * k)

/-- One channel of a MERGE: its base address and its length in samples (R73). -/
abbrev Channel := Nat × Nat

/-- The descriptor at address `d` (R73). -/
def readDescriptor (m : Memory) (d : Nat) : Option Channel :=
  match m.memRead d 4, m.memRead (d + 4) 4 with
  | some a, some n => some (a, n)
  | _, _ => none

/-- The descriptors at a list of addresses, in order. -/
def readDescriptors (m : Memory) : List Nat → Option (List Channel)
  | [] => some []
  | d :: ds =>
    match readDescriptor m d, readDescriptors m ds with
    | some c, some cs => some (c :: cs)
    | _, _ => none

/-- "RIFF" (R72). PRESUMED (log 6): the spec marks the ASCII codes as general knowledge (G1). -/
def tagRiff : List Byte := [0x52, 0x49, 0x46, 0x46]

/-- "WAVE" (R72) -/
def tagWave : List Byte := [0x57, 0x41, 0x56, 0x45]

/-- "fmt " (R72) -/
def tagFmt : List Byte := [0x66, 0x6D, 0x74, 0x20]

/-- "data" (R72) -/
def tagData : List Byte := [0x64, 0x61, 0x74, 0x61]

/-- `from_le` of the `len` bytes at offset `off` of a byte sequence (R35, R91). -/
def field (h : List Byte) (off len : Nat) : Nat :=
  fromLe ((h.drop off).take len)

/-- The thirteen HDR registers a 44-byte header gives, each field zero-extended to 32 bits (R35, R91). -/
def headerRegs (h : List Byte) : Vector Word 13 :=
  #v[BitVec.ofNat 32 (field h 0 4),
     BitVec.ofNat 32 (field h 4 4),
     BitVec.ofNat 32 (field h 8 4),
     BitVec.ofNat 32 (field h 12 4),
     BitVec.ofNat 32 (field h 16 4),
     BitVec.ofNat 32 (field h 20 2),
     BitVec.ofNat 32 (field h 22 2),
     BitVec.ofNat 32 (field h 24 4),
     BitVec.ofNat 32 (field h 28 4),
     BitVec.ofNat 32 (field h 32 2),
     BitVec.ofNat 32 (field h 34 2),
     BitVec.ofNat 32 (field h 36 4),
     BitVec.ofNat 32 (field h 40 4)]

/-- The strict-mode check of R91: all four literal tags are in their places. -/
def tagsMatch (h : List Byte) : Bool :=
  (h.drop 0).take 4 == tagRiff && (h.drop 8).take 4 == tagWave && (h.drop 12).take 4 == tagFmt
    && (h.drop 36).take 4 == tagData

end Sys2Proof.Machine
end

