-- ==== Sys2Proof/Machine/Container.lean ====
section
/-! DEFINITION. HBUILD, ASSEMBLE and HPARSE (42_container.md). -/

namespace Sys2Proof.Machine

/-- The 44 header bytes (R72, R89) for `c` PCM samples in total, `n` channels and rate `r`, with the formulas of R88. -/
def headerBytes (c n r : Nat) : List Byte :=
  tagRiff ++ leBytes 4 (36 + 2 * c) ++ tagWave ++ tagFmt ++ leBytes 4 16 ++ leBytes 2 1 ++ leBytes 2 n ++ leBytes 4 r
    ++ leBytes 4 (r * (2 * n)) ++ leBytes 2 (2 * n) ++ leBytes 2 16 ++ tagData ++ leBytes 4 (2 * c)

/-- Some field of the header does not fit its width (R88, R89): chunk size, block align or byte rate. -/
abbrev fieldOverflows (c n r : Nat) : Prop :=
  36 + 2 * c > 2 ^ 32 - 1 ∨ 2 * n > 2 ^ 16 - 1 ∨ r * (2 * n) > 2 ^ 32 - 1

/-- The rule of HBUILD (R89), in the order of checks of R102. It reads no BUF byte. -/
def runHbuild (s : State) : CmdResult :=
  let c := s.countVal
  let n := s.nchVal
  let r := s.rateVal
  let d := s.dstVal
  if ¬ s.inBuf d Config.hdrBytes then .error .range
  else if fieldOverflows c n r then .error .fieldOverflow
  else .complete { dst := d, bytes := headerBytes c n r, hdr := none, res0 := 44, res1 := 2 * c }

/-- HBUILD (R89). -/
def execHbuild (s : State) : Host.Outcome State Fault Refusal :=
  .next (s.finish (runHbuild s))

/-- The rule of ASSEMBLE (R90), in the order of checks of R102. The header's contents are not checked. -/
def runAssemble (s : State) : CmdResult :=
  let h := s.srcVal
  let p := s.src2Val
  let n := s.countVal
  let d := s.dstVal
  if ¬ s.inBuf h Config.hdrBytes then .error .range
  else if ¬ s.inBuf p n then .error .range
  else if ¬ s.inBuf d (44 + n) then .error .range
  else if overlaps d (44 + n) h Config.hdrBytes then .error .overlap
  else if overlaps d (44 + n) p n then .error .overlap
  else match s.buf.readBytes h Config.hdrBytes, s.buf.readBytes p n with
    | some hs, some ps => .complete { dst := d, bytes := hs ++ ps, hdr := none, res0 := 44 + n, res1 := 0 }
    | _, _ => .modelFault .uninitRead

/-- ASSEMBLE (R90). -/
def execAssemble (s : State) : Host.Outcome State Fault Refusal :=
  .next (s.finish (runAssemble s))

/-- The rule of HPARSE (R91), in the order of checks of R102. Only the 44 header bytes are read; no BUF byte is written. -/
def runHparse (s : State) : CmdResult :=
  let f := s.srcVal
  let n := s.countVal
  if n < Config.hdrBytes then .error .format
  else if ¬ s.inBuf f n then .error .range
  else match s.buf.readBytes f Config.hdrBytes with
    | none => .modelFault .uninitRead
    | some h =>
      if s.strict = true ∧ tagsMatch h = false then .error .format
      else .complete { dst := 0, bytes := [], hdr := some (headerRegs h), res0 := f + 44, res1 := n - 44 }

/-- HPARSE (R91). -/
def execHparse (s : State) : Host.Outcome State Fault Refusal :=
  .next (s.finish (runHparse s))

end Sys2Proof.Machine
end

