-- ==== Sys2Proof/Machine/Control.lean ====
section
/-! DEFINITION. The command NOP (43_control.md). -/

namespace Sys2Proof.Machine

/-- `NOP: complete(0, 0)` (R93): it reads no BUF byte and writes none. -/
def runNop : CmdResult :=
  .complete { dst := 0, bytes := [], hdr := none, res0 := 0, res1 := 0 }

/-- NOP (R93). -/
def execNop (s : State) : Host.Outcome State Fault Refusal :=
  .next (s.finish runNop)

end Sys2Proof.Machine
end

