-- ==== Sys2Proof/Machine/Interleaver.lean ====
section
/-! DEFINITION. MERGE and SEPARATE (40_interleaver.md). Elements are copied bit for bit (R48). -/

namespace Sys2Proof.Machine

/-- `min over c of n[c]`. -/
def minLen : List Channel → Nat
  | [] => 0
  | [c] => c.2
  | c :: cs => min c.2 (minLen cs)

/-- Where MERGE reads its samples, in output order: for each frame `t`, channel 0, channel 1, … (R77). -/
def mergeAddrs (chans : List Channel) (frames : Nat) : List Nat :=
  (List.range frames).flatMap (fun t => chans.map (fun c => c.1 + 8 * t))

/-- Where SEPARATE reads its samples, in output order: all frames of channel 0, then of channel 1, … (R77, R79). -/
def separateAddrs (src chans frames : Nat) : List Nat :=
  (List.range chans).flatMap (fun c => (List.range frames).map (fun t => src + 8 * (t * chans + c)))

/-- MERGE from the point where its descriptors are read (R78, checks 2 to 5, then the copy). -/
def mergeChannels (s : State) (chans : List Channel) : CmdResult :=
  let n := s.nchVal
  let t := s.srcVal
  let d := s.dstVal
  let l := minLen chans
  if ¬ ∀ c ∈ chans, s.inBuf c.1 (8 * c.2) then .error .range
  else if ¬ s.inBuf d (8 * n * l) then .error .range
  else if overlaps d (8 * n * l) t (8 * n) then .error .overlap
  else if ∃ c ∈ chans, overlaps d (8 * n * l) c.1 (8 * c.2) then .error .overlap
  else match s.buf.readAll 8 (mergeAddrs chans l) with
    | none => .modelFault .uninitRead
    | some e => .complete { dst := d, bytes := arrayBytes 8 e, hdr := none, res0 := n * l, res1 := l }

/-- The rule of MERGE (R78), in the order of checks of R102. -/
def runMerge (s : State) : CmdResult :=
  let n := s.nchVal
  let t := s.srcVal
  if n = 0 then .complete { dst := s.dstVal, bytes := [], hdr := none, res0 := 0, res1 := 0 }
  else if ¬ s.inBuf t (8 * n) then .error .range
  else match readDescriptors s.buf (elemAddrs t Config.descBytes n) with
    | none => .modelFault .uninitRead
    | some chans => mergeChannels s chans

/-- MERGE (R78). -/
def execMerge (s : State) : Host.Outcome State Fault Refusal :=
  .next (s.finish (runMerge s))

/-- The rule of SEPARATE (R79), in the order of checks of R102. -/
def runSeparate (s : State) : CmdResult :=
  let n := s.nchVal
  let src := s.srcVal
  let k := s.countVal
  let d := s.dstVal
  if n = 0 then .error .badOperand
  else if ¬ s.inBuf src (8 * k) then .error .range
  else
    let l := k / n
    let r := k % n
    if ¬ s.inBuf d (8 * n * l) then .error .range
    else if overlaps d (8 * n * l) src (8 * k) then .error .overlap
    else match s.buf.readAll 8 (separateAddrs src n l) with
      | none => .modelFault .uninitRead
      | some e => .complete { dst := d, bytes := arrayBytes 8 e, hdr := none, res0 := l, res1 := r }

/-- SEPARATE (R79). -/
def execSeparate (s : State) : Host.Outcome State Fault Refusal :=
  .next (s.finish (runSeparate s))

end Sys2Proof.Machine
end

