-- ==== Sys2Proof/Machine/Binary64.lean ====
section
/-! DEFINITION. The real-number primitives of R11 on binary64 values. A binary64 value is its 64-bit encoding, so `f64` and
`bits64` of R11 are the identity here. A finite encoding `b` stands for `(-1)^sign * mant b * 2^(expo b)`; a product or a
quotient is computed exactly on natural numbers and rounded once, to nearest with ties to even. PRESUMED (log 5): the
format and the operations are IEEE 754's, which the spec names and does not write out (R11, G2). -/

namespace Sys2Proof.Machine

/-- The sign bit. -/
def signBit (b : QWord) : Bool := b.msb

/-- The biased exponent field, bits 62:52. -/
def expField (b : QWord) : Nat := (b.extractLsb' 52 11).toNat

/-- The fraction field, bits 51:0. -/
def fracField (b : QWord) : Nat := (b.extractLsb' 0 52).toNat

/-- `isFinite(r)`: false exactly for NaN, +Inf and -Inf (R11). -/
def isFinite (b : QWord) : Bool := decide (expField b ≠ 2047)

/-- The significand of a finite value as an integer; a subnormal has no hidden bit. -/
def mant (b : QWord) : Nat :=
  if expField b = 0 then fracField b else 2 ^ 52 + fracField b

/-- The exponent that goes with `mant`. -/
def expo (b : QWord) : Int :=
  if expField b = 0 then -1074 else (expField b : Int) - 1075

/-- `2^e`, or 1 where `e` is negative: one side of a fraction scaled by a power of two. -/
def pow2 (e : Int) : Nat := 2 ^ e.toNat

/-- The floor of log2 of the positive rational `num / den`. -/
def log2Floor (num den : Nat) : Int :=
  let k : Int := (Nat.log2 num : Int) - Nat.log2 den
  if den * pow2 k ≤ num * pow2 (-k) then k else k - 1

/-- The integer nearest `num / den`; of two equally near, the even one. -/
def divRoundEven (num den : Nat) : Nat :=
  let q := num / den
  let r := num % den
  if 2 * r < den then q
  else if den < 2 * r then q + 1
  else q + q % 2

/-- The encoding of +Inf. -/
def infMag : Nat := 0x7FF0000000000000

/-- The encoding, without its sign bit, of the binary64 value nearest `num / den`, ties to even. `u` is the exponent of the
last place: 52 below the leading bit, but never below -1074 (the subnormals). A significand that rounds up to 2^53 carries
into the exponent field by itself, and whatever exceeds the largest finite value is +Inf. -/
def roundMag (num den : Nat) : Nat :=
  if num = 0 then 0
  else
    let u : Int := max (log2Floor num den - 52) (-1074)
    let m := divRoundEven (num * pow2 (-u)) (den * pow2 u)
    min ((u + 1074).toNat * 2 ^ 52 + m) infMag

/-- A sign and a magnitude put together. -/
def withSign (neg : Bool) (mag : Nat) : QWord :=
  BitVec.ofNat 64 ((if neg then 2 ^ 63 else 0) + mag)

/-- `mul_rne(a, b)` (R11), for finite `a` and `b`, the only operands a command gives it (R81). -/
def mulRne (a b : QWord) : QWord :=
  let e := expo a + expo b
  withSign (signBit a ^^ signBit b) (roundMag (mant a * mant b * pow2 e) (pow2 (-e)))

/-- `div_rne(a, b)` (R11), for finite `a` and finite nonzero `b`, the only operands a command gives it (R82). -/
def divRne (a b : QWord) : QWord :=
  let e := expo a - expo b
  withSign (signBit a ^^ signBit b) (roundMag (mant a * pow2 e) (mant b * pow2 (-e)))

/-- The magnitude of `trunc(r)`, for finite `r`. -/
def truncMag (b : QWord) : Nat := mant b * pow2 (expo b) / pow2 (-expo b)

/-- `trunc(r)`: toward zero, with the sign of `r` (R11), for finite `r`. -/
def trunc (b : QWord) : Int :=
  if signBit b then -(truncMag b : Int) else (truncMag b : Int)

/-- `real(n)` (R11): the binary64 value equal to `n` where |n| <= 2^53, else the one nearest it. -/
def real (n : Int) : QWord :=
  withSign (decide (n < 0)) (roundMag n.natAbs 1)

/-- The binary64 value nearest the decimal fraction `±num/den` (R76: "read as the nearest binary64"). -/
def realOfRatio (neg : Bool) (num den : Nat) : QWord :=
  withSign neg (roundMag num den)

/-- `wrap16(n)` (R8) as a 16-bit two's-complement value. -/
def wrap16 (n : Int) : Pcm := BitVec.ofInt 16 n

end Sys2Proof.Machine
end

