-- ==== Sys2Proof/Machine/SampleCodec.lean ====
section
/-! DEFINITION. QENC and QDEC (41_sample_codec.md). There is no clamping: the wrap is modulo 2^16 (R81, R101, C1). -/

namespace Sys2Proof.Machine

/-- `quantize` (R81); `none` is NONFINITE. -/
def quantize (b : QWord) : Option Pcm :=
  if isFinite b then
    let p := mulRne b (real Config.maxSampleValue)
    if isFinite p then some (wrap16 (trunc p)) else none
  else none

/-- `dequantize` (R82). -/
def dequantize (v : Pcm) : QWord :=
  divRne (real v.toInt) (real Config.maxSampleValue)

/-- `quantize` on every sample of an array; `none` if some sample is NONFINITE (R84). -/
def quantizeAll : List Nat → Option (List Pcm)
  | [] => some []
  | b :: bs =>
    match quantize (BitVec.ofNat 64 b), quantizeAll bs with
    | some q, some qs => some (q :: qs)
    | _, _ => none

/-- The rule of QENC (R84), in the order of checks of R102. -/
def runQenc (s : State) : CmdResult :=
  let src := s.srcVal
  let n := s.countVal
  let d := s.dstVal
  if ¬ s.inBuf src (8 * n) then .error .range
  else if ¬ s.inBuf d (2 * n) then .error .range
  else if overlaps d (2 * n) src (8 * n) then .error .overlap
  else match s.buf.readAll 8 (elemAddrs src Config.elemBytes n) with
    | none => .modelFault .uninitRead
    | some xs =>
      match quantizeAll xs with
      | none => .error .nonfinite
      | some qs =>
        .complete { dst := d, bytes := arrayBytes 2 (qs.map BitVec.toNat), hdr := none, res0 := 2 * n, res1 := 0 }

/-- QENC (R84). -/
def execQenc (s : State) : Host.Outcome State Fault Refusal :=
  .next (s.finish (runQenc s))

/-- The rule of QDEC (R85), in the order of checks of R102. -/
def runQdec (s : State) : CmdResult :=
  let src := s.srcVal
  let n := s.countVal
  let d := s.dstVal
  if n % 2 ≠ 0 then .error .length
  else
    let m := n / 2
    if ¬ s.inBuf src n then .error .range
    else if ¬ s.inBuf d (8 * m) then .error .range
    else if overlaps d (8 * m) src n then .error .overlap
    else match s.buf.readAll 2 (elemAddrs src Config.sampleBytes m) with
      | none => .modelFault .uninitRead
      | some vs =>
        .complete
          { dst := d
            bytes := arrayBytes 8 (vs.map (fun v => (dequantize (BitVec.ofNat 16 v)).toNat))
            hdr := none
            res0 := m
            res1 := 0 }

/-- QDEC (R85). -/
def execQdec (s : State) : Host.Outcome State Fault Refusal :=
  .next (s.finish (runQdec s))

end Sys2Proof.Machine
end

