-- ==== Sys2Proof/Machine/Dispatch.lean ====
section
/-! DEFINITION. The command a completion runs (R66, R95): one arm per command. -/

namespace Sys2Proof.Machine

def exec (i : Instr) (s : State) : Host.Outcome State Fault Refusal :=
  match i with
  | .nop => Sys2Proof.Machine.execNop s
  | .merge => Sys2Proof.Machine.execMerge s
  | .separate => Sys2Proof.Machine.execSeparate s
  | .qenc => Sys2Proof.Machine.execQenc s
  | .qdec => Sys2Proof.Machine.execQdec s
  | .hbuild => Sys2Proof.Machine.execHbuild s
  | .assemble => Sys2Proof.Machine.execAssemble s
  | .hparse => Sys2Proof.Machine.execHparse s

end Sys2Proof.Machine
end

