-- ==== Sys2Proof/Machine/Engine.lean ====
section
/-! DEFINITION. The engine's one step (R95): decode the latched command word, run the command to its end. -/

namespace Sys2Proof.Machine

/-- Completion (R95): an illegal word ends in ILLEGAL_CMD (R67, R68), a legal one runs its command. -/
def engineStep (s : State) : Host.Outcome State Fault Refusal :=
  match decode s.cmd with
  | .instr i => exec i s
  | .illegal _ => .next (s.finish (.error .illegalCmd))

/-- The engine's turn: it has a step only while BUSY = 1 (R16, R22); else it is idle and keeps all its state (R109, R111). -/
def engineTurn (s : State) : Host.Outcome State Fault Refusal :=
  if s.status.busy then engineStep s else .next s

end Sys2Proof.Machine
end

