-- ==== Sys2Proof/Machine/HostPort.lean ====
section
/-! DEFINITION. What the outside world does to PCMQ: the host's transactions (R49 to R54, R113), the polling loop `wait`
(R76, R114) and the reset event (R110). -/

namespace Sys2Proof.Machine

/-- The number of bytes of a transaction (R74). -/
def Width.bytes : Width → Nat
  | .w1 => 1
  | .w2 => 2
  | .w4 => 4
  | .w8 => 8

/-- The register a REG access names: exactly 32 bits, at the offset of an assigned register; `none` is BUS_ERROR (R49). -/
def regTarget (off : Nat) (w : Width) : Option Reg :=
  match w with
  | .w4 => Reg.ofOffset off
  | .w1 => none
  | .w2 => none
  | .w8 => none

/-- The registers the host may read while BUSY = 1 (R113). -/
def Reg.busyReadable : Reg → Bool
  | .cmd => true
  | .status => true
  | .ctrl => true
  | .src => true
  | .src2 => true
  | .dst => true
  | .count => true
  | .nch => true
  | .rate => true
  | .res0 => false
  | .res1 => false
  | .caps => true
  | .bufsize => true
  | .hdr _ => false

/-- A host access that ends in a model fault: it returns no value and changes nothing but the fault record. `bus` says
that R49 or R50 forbids it. While BUSY = 1 it is a HAZARD too (R113): neither rule excepts the other's case, so both kinds
are recorded. DEDUCED (log 7). -/
def State.accessFault (s : State) (bus : Bool) : State :=
  { s with
    faults := { s.faults with busError := s.faults.busError || bus, hazard := s.faults.hazard || s.status.busy }
    returned := none }

/-- A host read of a register (R49): while BUSY = 1, only of those R113 lists. A read has no side effect (R54). -/
def State.hostReadReg (s : State) (r : Reg) : State :=
  if s.status.busy && !r.busyReadable then s.accessFault false
  else { s with returned := some ((s.readReg r).setWidth 64) }

/-- A host write of a register (R49): none while BUSY = 1 (R113). -/
def State.hostWriteReg (s : State) (r : Reg) (v : Word) : State :=
  if s.status.busy then s.accessFault false
  else { s.writeReg r v with returned := none }

/-- A host read of BUF (R50, R51): none while BUSY = 1 (R113). While BUSY = 1 the read is not made, so it records HAZARD alone
even where a byte it would cover is unwritten: R51 and R107 name UNINIT_READ for such a read, R113 gives it HAZARD and no other
effect, and the model follows R113. DESIGN CHOICE (log 14). -/
def State.hostReadBuf (s : State) (a n : Nat) : State :=
  if s.status.busy then s.accessFault false
  else match s.buf.memRead a n with
    | some v => { s with returned := some (BitVec.ofNat 64 v) }
    | none => { s.modelFault .uninitRead with returned := none }

/-- A host write of BUF (R50): none while BUSY = 1 (R113). -/
def State.hostWriteBuf (s : State) (a n : Nat) (v : QWord) : State :=
  if s.status.busy then s.accessFault false
  else { s with buf := s.buf.memWrite a n v.toNat, returned := none }

/-- One host access (R49, R50): legal, or BUS_ERROR. A BUF access must lie below BUF_BYTES as a whole. A read that does not is
not made, so it records BUS_ERROR and not UNINIT_READ, even where a byte it would cover inside BUF is unwritten: R50 names the
one kind, R51 and R107 the other, and the spec does not say what the two together record. DESIGN CHOICE (log 15). -/
def State.hostAccess (s : State) : Access → State
  | .read .reg off w =>
    match regTarget off w with
    | some r => s.hostReadReg r
    | none => s.accessFault true
  | .write .reg off w v =>
    match regTarget off w with
    | some r => s.hostWriteReg r (v.setWidth 32)
    | none => s.accessFault true
  | .read .buf a w =>
    if a + w.bytes ≤ s.bufBytes then s.hostReadBuf a w.bytes else s.accessFault true
  | .write .buf a w v =>
    if a + w.bytes ≤ s.bufBytes then s.hostWriteBuf a w.bytes v else s.accessFault true

/-- The host's turn: the next entry of its program. `wait` reads STATUS and stays until the value read has BUSY = 0 (R76);
with nothing left to do the host makes no access. -/
def State.hostTurn (s : State) : State :=
  match s.program with
  | [] => s
  | .access a :: rest => { s with program := rest }.hostAccess a
  | .wait :: rest =>
    if s.status.busy then s.hostReadReg .status else { s with program := rest }.hostReadReg .status

/-- The reset event (R110): every register takes its reset value, BUF becomes unwritten, a command in flight is abandoned,
and the fault record is unchanged. BUF_BYTES is a constant of the device, and what the host still has to do is not part of
it. -/
def State.resetEvent (s : State) : State :=
  { State.resetWith s.bufSize with faults := s.faults, program := s.program, schedule := s.schedule }

end Sys2Proof.Machine
end

