-- ==== Sys2Proof/Machine/Step.lean ====
section
/-! DEFINITION. One step of PCMQ: the turn of the host, of the engine, or a reset. -/

namespace Sys2Proof.Machine

/-- One step. The schedule fixes whose turn it is, so every interleaving the spec allows is some schedule; when it is
empty, the engine moves if it has a step (weak fairness, R96), else the host. DESIGN CHOICE (log 3). -/
def step (s : State) : Host.Outcome State Fault Refusal :=
  match s.schedule with
  | .host :: rest => .next ({ s with schedule := rest }).hostTurn
  | .engine :: rest => engineTurn { s with schedule := rest }
  | .reset :: rest => .next ({ s with schedule := rest }).resetEvent
  | [] => if s.status.busy then engineTurn s else .next s.hostTurn

/-- The state in which `w` has just been issued (R94) and the next turn is the engine's. PCMQ fetches nothing (R62): the
word to execute is the one latched in CMD. -/
def State.withFetchWord (s : State) (nbits w : Nat) : State :=
  { s.issue (BitVec.ofNat 32 (w % 2 ^ nbits)) with
    schedule := match s.schedule with
      | [] => []
      | t :: ts => .engine :: t :: ts }

end Sys2Proof.Machine
end

