-- ==== Sys2Proof/Machine/HostProgram.lean ====
section
/-! DEFINITION. Host programs as the spec writes them: the statements (R75) and the pseudo-instructions (R76), each with
the transactions (R74) it stands for. -/

namespace Sys2Proof.Machine

/-- `wr REG, v` (R75) -/
def wr (r : Reg) (v : Word) : HostOp := .access (.write .reg r.offset .w4 (v.setWidth 64))

/-- `rd REG` (R75) -/
def rd (r : Reg) : HostOp := .access (.read .reg r.offset .w4)

/-- `wr CMD, <mnemonic>`: the mnemonic stands for its OPC value (R75). -/
def wrCmd (i : Instr) : HostOp := wr .cmd (encode i)

/-- `sb a, v` (R75) -/
def sb (a : Nat) (v : Byte) : HostOp := .access (.write .buf a .w1 (v.setWidth 64))

/-- `sh a, v` (R75) -/
def sh (a : Nat) (v : BitVec 16) : HostOp := .access (.write .buf a .w2 (v.setWidth 64))

/-- `sw a, v` (R75) -/
def sw (a : Nat) (v : Word) : HostOp := .access (.write .buf a .w4 (v.setWidth 64))

/-- `sd a, v` (R75) -/
def sd (a : Nat) (v : QWord) : HostOp := .access (.write .buf a .w8 v)

/-- `lb a` (R75) -/
def lb (a : Nat) : HostOp := .access (.read .buf a .w1)

/-- `lh a` (R75) -/
def lh (a : Nat) : HostOp := .access (.read .buf a .w2)

/-- `lw a` (R75) -/
def lw (a : Nat) : HostOp := .access (.read .buf a .w4)

/-- `ld a` (R75) -/
def ld (a : Nat) : HostOp := .access (.read .buf a .w8)

/-- `sf64 a, r` (R76), with `r` the decimal real `±num/den`. -/
def sf64 (a : Nat) (neg : Bool) (num den : Nat) : HostOp := sd a (realOfRatio neg num den)

/-- `q.nop` (R76) -/
def qNop : List HostOp := [wrCmd .nop, .wait]

/-- `q.merge dst, tbl, nch` (R76) -/
def qMerge (dst tbl nch : Word) : List HostOp :=
  [wr .src tbl, wr .dst dst, wr .nch nch, wrCmd .merge, .wait]

/-- `q.separate dst, src, count, nch` (R76) -/
def qSeparate (dst src count nch : Word) : List HostOp :=
  [wr .src src, wr .count count, wr .dst dst, wr .nch nch, wrCmd .separate, .wait]

/-- `q.enc dst, src, count` (R76) -/
def qEnc (dst src count : Word) : List HostOp :=
  [wr .src src, wr .count count, wr .dst dst, wrCmd .qenc, .wait]

/-- `q.dec dst, src, nbytes` (R76) -/
def qDec (dst src nbytes : Word) : List HostOp :=
  [wr .src src, wr .count nbytes, wr .dst dst, wrCmd .qdec, .wait]

/-- `q.hbuild dst, nsamp, nch, rate` (R76) -/
def qHbuild (dst nsamp nch rate : Word) : List HostOp :=
  [wr .dst dst, wr .count nsamp, wr .nch nch, wr .rate rate, wrCmd .hbuild, .wait]

/-- `q.assemble dst, hdr, payload, nbytes` (R76) -/
def qAssemble (dst hdr payload nbytes : Word) : List HostOp :=
  [wr .src hdr, wr .src2 payload, wr .count nbytes, wr .dst dst, wrCmd .assemble, .wait]

/-- `q.hparse src, nbytes` (R76) -/
def qHparse (src nbytes : Word) : List HostOp :=
  [wr .src src, wr .count nbytes, wrCmd .hparse, .wait]

end Sys2Proof.Machine
end

