-- ==== Sys2Proof/Safety.lean ====
section
/-! DEFINITION. What counts as a safe run of PCMQ, the invariant of its state, and the words in which the statements say what
a step changes and what it leaves alone. -/

namespace Sys2Proof.Machine

/-- No model fault is recorded. "A state whose fault record is non-empty is never final" (R39), and "every claim about a
host program assumes no model fault recorded" (R107). -/
def State.faultFree (s : State) : Prop := s.faults = FaultRecord.empty

/-- No command has ended with a device error since STICKY was last clear (R25). -/
def State.errorFree (s : State) : Prop := s.status.sticky = false

/-- The fields of STATUS agree with one another (R22 to R26). -/
structure Status.Consistent (st : Status) : Prop where
  /-- issue clears DONE, ERR and ERRCODE (R94) -/
  busy_clear : st.busy = true → st.done = false ∧ st.err = false
  /-- ERRCODE is 0 exactly when the last completed command raised no device error (R24, R26) -/
  err_iff : st.err = true ↔ st.errcode ≠ .none
  /-- only a completion sets ERR (R23, R24) -/
  err_done : st.err = true → st.done = true

/-- The 2-byte header fields (audio format, channels, block align, bits per sample) are zero-extended (R35). -/
def HdrZeroExtended (h : Vector Word 13) : Prop :=
  h[5].toNat < 2 ^ 16 ∧ h[6].toNat < 2 ^ 16 ∧ h[9].toNat < 2 ^ 16 ∧ h[10].toNat < 2 ^ 16

/-- What every step keeps. -/
structure State.Inv (s : State) : Prop where
  /-- BUF is in its canonical form -/
  buf_wf : s.buf.wf
  /-- every written byte lies in BUF, addresses 0 to BUF_BYTES - 1 (R44) -/
  buf_inside : ∀ c ∈ s.buf, c.1 < s.bufBytes
  /-- BUF_BYTES is within the bounds of R7 -/
  size_ok : bufBytesWf s.bufBytes = true
  /-- STATUS is one the rules can produce -/
  status_ok : s.status.Consistent
  /-- the HDR registers hold fields of the header's widths -/
  hdr_ok : HdrZeroExtended s.hdr

/-! ### Frames -/

/-- The registers and the parts of the state that no command writes: CMD, CTRL, the operand registers, BUFSIZE, the fault
record on success, and the host's side. -/
structure SameSetup (s t : State) : Prop where
  cmd : t.cmd = s.cmd
  strict : t.strict = s.strict
  src : t.src = s.src
  src2 : t.src2 = s.src2
  dst : t.dst = s.dst
  count : t.count = s.count
  nch : t.nch = s.nch
  rate : t.rate = s.rate
  bufSize : t.bufSize = s.bufSize
  faults : t.faults = s.faults
  program : t.program = s.program
  schedule : t.schedule = s.schedule
  returned : t.returned = s.returned

/-- STATUS as a successful completion leaves it: BUSY 0, DONE 1, ERR 0, ERRCODE 0, STICKY unchanged (R95). -/
def EndsInSuccess (s t : State) : Prop :=
  t.status = { busy := false, done := true, err := false, sticky := s.status.sticky, errcode := .none }

/-- Every byte outside the `n` bytes from `a` on reads as before. -/
def SameOutside (s t : State) (a n : Nat) : Prop :=
  ∀ x, x < a ∨ a + n ≤ x → t.buf.read x = s.buf.read x

/-- Every byte of BUF reads as before. -/
def SameBuf (s t : State) : Prop := ∀ x, t.buf.read x = s.buf.read x

/-- The state a device error leaves: STATUS with BUSY 0, DONE 1, ERR 1, STICKY 1 and the code, and nothing else changed
(R95, R103). -/
def State.withError (s : State) (e : ErrCode) : State :=
  { s with status := { busy := false, done := true, err := true, sticky := true, errcode := e } }

/-- The state ModelFault(UNINIT_READ) leaves: the kind is recorded, and nothing else changed (R95, R107). -/
def State.withUninitRead (s : State) : State :=
  { s with faults := { s.faults with uninitRead := true } }

/-- The registers a command reads, by the table of R70, are the same in two states. -/
def SameOperands (i : Instr) (s t : State) : Prop :=
  match i with
  | .nop => True
  | .merge => s.src = t.src ∧ s.dst = t.dst ∧ s.nch = t.nch
  | .separate => s.src = t.src ∧ s.dst = t.dst ∧ s.count = t.count ∧ s.nch = t.nch
  | .qenc => s.src = t.src ∧ s.dst = t.dst ∧ s.count = t.count
  | .qdec => s.src = t.src ∧ s.dst = t.dst ∧ s.count = t.count
  | .hbuild => s.dst = t.dst ∧ s.count = t.count ∧ s.nch = t.nch ∧ s.rate = t.rate
  | .assemble => s.src = t.src ∧ s.src2 = t.src2 ∧ s.dst = t.dst ∧ s.count = t.count
  | .hparse => s.src = t.src ∧ s.count = t.count ∧ s.strict = t.strict

/-- How many bytes, from address DST on, a command stores if it succeeds, by its rule. MERGE's count comes from its
descriptors: 8 bytes for each of the N * L samples, L the shortest length (R78, R79, R84, R85, R89, R90). -/
def storedBytes (i : Instr) (s : State) : Nat :=
  match i with
  | .nop => 0
  | .merge =>
    match readDescriptors s.buf (elemAddrs s.srcVal 8 s.nchVal) with
    | some chans => 8 * s.nchVal * minLen chans
    | none => 0
  | .separate => 8 * s.nchVal * (s.countVal / s.nchVal)
  | .qenc => 2 * s.countVal
  | .qdec => 8 * (s.countVal / 2)
  | .hbuild => 44
  | .assemble => 44 + s.countVal
  | .hparse => 0

/-- Every byte of a range of BUF is written. -/
def State.written (s : State) (a n : Nat) : Prop := ∀ k < n, (s.buf.read (a + k)).isSome = true

/-- The reset value of every register, by the table of R19, for a BUF of `size` bytes. -/
def Reg.resetValue (size : Word) : Reg → Word
  | .nch => 2
  | .rate => 0x0000AC44
  | .caps => 0x00002C10
  | .bufsize => size
  | .cmd => 0
  | .status => 0
  | .ctrl => 0
  | .src => 0
  | .src2 => 0
  | .dst => 0
  | .count => 0
  | .res0 => 0
  | .res1 => 0
  | .hdr _ => 0

/-- The registers R113 lets the host read while BUSY = 1. -/
def readableWhileBusy : List Reg :=
  [.status, .cmd, .ctrl, .src, .src2, .dst, .count, .nch, .rate, .caps, .bufsize]

/-- R49 forbids the access (a REG access of a wrong width or place), or R50 does (a BUF access not fully inside BUF). -/
def State.forbids (s : State) : Access → Bool
  | .read .reg off w => decide (regTarget off w = none)
  | .write .reg off w _ => decide (regTarget off w = none)
  | .read .buf a w => decide (s.bufBytes < a + w.bytes)
  | .write .buf a w _ => decide (s.bufBytes < a + w.bytes)

/-- The byte offset in the header of the field that HDRk holds (R35). -/
def hdrFieldOffset (k : Fin 13) : Nat :=
  (#v[0, 4, 8, 12, 16, 20, 22, 24, 28, 32, 34, 36, 40] : Vector Nat 13)[k]

/-- The size in bytes of the field that HDRk holds (R35). -/
def hdrFieldSize (k : Fin 13) : Nat :=
  (#v[4, 4, 4, 4, 4, 2, 2, 4, 4, 2, 2, 4, 4] : Vector Nat 13)[k]

/-- The four literal tags stand in the header at address `f`: "RIFF", "WAVE", "fmt " and "data" as little-endian integers
(R72). -/
def TagsAt (m : Memory) (f : Nat) : Prop :=
  m.memRead f 4 = some 0x46464952 ∧ m.memRead (f + 8) 4 = some 0x45564157 ∧ m.memRead (f + 12) 4 = some 0x20746D66 ∧
    m.memRead (f + 36) 4 = some 0x61746164

/-! ### The parts of a MERGE's precondition -/

/-- The descriptor table at SRC lies in BUF and is written: channel `c` has base `base c` and length `len c` (R73). -/
def DescriptorsAre (s : State) (base len : Nat → Nat) : Prop :=
  s.inBuf s.srcVal (8 * s.nchVal) ∧
    ∀ c < s.nchVal, s.buf.memRead (s.srcVal + 8 * c) 4 = some (base c) ∧
      s.buf.memRead (s.srcVal + 8 * c + 4) 4 = some (len c)

/-- `L` is the length of the shortest of the `n` channels. -/
def IsShortest (n : Nat) (len : Nat → Nat) (L : Nat) : Prop :=
  (∃ c < n, len c = L) ∧ ∀ c < n, L ≤ len c

/-! ### Binary64 as a number -/

/-- The rational value of a finite binary64 encoding (R11). -/
def realValue (b : QWord) : ℚ :=
  (if signBit b then -1 else 1) * (mant b : ℚ) * (2 : ℚ) ^ (expo b)

end Sys2Proof.Machine
end

