-- ==== Sys2Proof/Certificates/Slice0/Obligations.lean ====
section
/-! DEFINITION. The statements about PCMQ, from the numbered rules of spec/. A statement is about every state, so about
every BUF_BYTES. -/

open Sys2Proof Sys2Proof.Machine

/-! ### Reset (R19, R41, R110) -/

/-- After the first reset every register reads as R19's table says, every BUF byte is unwritten, and no fault is recorded. -/
def Obligations.ResetLeavesTableValues : Prop :=
  ∀ size : Word,
    (∀ r, (State.resetWith size).readReg r = r.resetValue size) ∧
    (∀ a, (State.resetWith size).buf.read a = none) ∧
    (State.resetWith size).faultFree

/-- The reset event (R110) gives every register its reset value, makes BUF unwritten, abandons a command in flight and leaves
the fault record as it is; it can happen in any state. That the turn comes from a schedule in State is the model's choice
(log 3), and so are the clauses about the host's program and the schedule, which a reset keeps (log 10). -/
def Obligations.ResetEventAbandonsCommand : Prop :=
  ∀ (s : State) (rest : List Turn), s.schedule = .reset :: rest →
    ∃ t, step s = .next t ∧
      (∀ r, t.readReg r = r.resetValue s.bufSize) ∧
      t.status = { busy := false, done := false, err := false, sticky := false, errcode := .none } ∧
      (∀ a, t.buf.read a = none) ∧
      t.faults = s.faults ∧ t.bufSize = s.bufSize ∧ t.program = s.program ∧ t.schedule = rest

/-! ### Encoding (R65 to R68) -/

/-- The words of R66, written out, and the illegal words of the vectors V-C1 to V-C3. -/
def Obligations.OpcodeMapWords : Prop :=
  decode 0x00000000 = .instr .nop ∧ decode 0x00000001 = .instr .merge ∧ decode 0x00000002 = .instr .separate ∧
  decode 0x00000003 = .instr .qenc ∧ decode 0x00000004 = .instr .qdec ∧ decode 0x00000005 = .instr .hbuild ∧
  decode 0x00000006 = .instr .assemble ∧ decode 0x00000007 = .instr .hparse ∧
  decode 0x00000008 = .illegal .reservedOpcode ∧ decode 0x00000100 = .illegal .reservedBits ∧
  decode 0xFFFFFFFF = .illegal .reservedBits

/-- R67: every 32-bit word selects exactly one command or raises ILLEGAL_CMD. The encoder's word of a command is the one word
that selects it; those words are the match values of the opcode map; the illegal words are those with RSVD not 0 or OPC above
7, and the completion of one is the device error ILLEGAL_CMD. -/
def Obligations.EveryWordSelectsOneCommandOrIsIllegal : Prop :=
  (∀ i : Instr, i.wf = true → decode (encode i) = .instr i) ∧
  (∀ (w : Word) (i : Instr), decode w = .instr i → w = encode i) ∧
  (∀ w : Word, (∃ why, decode w = .illegal why) ↔ (rsvd w ≠ 0 ∨ 8 ≤ (opc w).toNat)) ∧
  (encode .nop = 0x00000000 ∧ encode .merge = 0x00000001 ∧ encode .separate = 0x00000002 ∧ encode .qenc = 0x00000003 ∧
    encode .qdec = 0x00000004 ∧ encode .hbuild = 0x00000005 ∧ encode .assemble = 0x00000006 ∧
    encode .hparse = 0x00000007) ∧
  (∀ (s : State) (why : IllegalWord), s.status.busy = true → decode s.cmd = .illegal why →
    engineTurn s = .next (s.withError .illegalCmd))

/-! ### Issue and completion (R94, R95, R99) -/

/-- While BUSY = 1 the engine's step runs exactly the command that CMD decodes to; the host's step makes exactly the next
access of its program, and with none left it changes nothing. Each takes its turn off the schedule; with an empty schedule the
engine moves while BUSY = 1, else the host. The schedule and the program are the model's choice (log 3). -/
def Obligations.StepRunsIssuedCommand : Prop :=
  (∀ (s : State) (i : Instr), s.status.busy = true → decode s.cmd = .instr i → i.wf = true →
    (∀ rest, s.schedule = .engine :: rest → step s = exec i { s with schedule := rest }) ∧
    (s.schedule = [] → step s = exec i s)) ∧
  (∀ (s : State) (a : Access) (prog : List HostOp), s.program = .access a :: prog →
    (∀ rest, s.schedule = .host :: rest →
      step s = .next (({ s with program := prog, schedule := rest } : State).hostAccess a)) ∧
    (s.schedule = [] → s.status.busy = false → step s = .next (({ s with program := prog } : State).hostAccess a))) ∧
  (∀ s : State, s.program = [] →
    (∀ rest, s.schedule = .host :: rest → step s = .next { s with schedule := rest }) ∧
    (s.schedule = [] → s.status.busy = false → step s = .next s))

/-- R68: an illegal word completes with ILLEGAL_CMD (code 3) and writes nothing else. -/
def Obligations.IllegalWordEndsInIllegalCmd : Prop :=
  ∀ s : State, s.status.busy = true → (rsvd s.cmd ≠ 0 ∨ 8 ≤ (opc s.cmd).toNat) →
    engineTurn s = .next (s.withError .illegalCmd) ∧
    ((s.withError .illegalCmd).readReg .status).extractLsb' 8 4 = 3

/-- R94: a host write of CMD while BUSY = 0 stores the word, whatever it is, and issues; everything else is unchanged. While
BUSY = 1 such a write is a HAZARD and does nothing else. (`returned` is the model's own field, log 4.) -/
def Obligations.CmdWriteIssues : Prop :=
  ∀ (s : State) (v : QWord),
    (s.status.busy = false →
      s.hostAccess (.write .reg 0x00 .w4 v) =
        { s with
          cmd := v.setWidth 32
          status := { busy := true, done := false, err := false, sticky := s.status.sticky, errcode := .none }
          returned := none }) ∧
    (s.status.busy = true →
      s.hostAccess (.write .reg 0x00 .w4 v) = { s with faults := { s.faults with hazard := true }, returned := none })

/-- R99, R103: from every state with BUSY = 1 the engine's turn answers a next state, in exactly one of three ways: success
(STATUS ends in success and no fault is added), a device error (only STATUS changes, with a code other than 0), or
UNINIT_READ (only the fault record changes, and BUSY stays 1). -/
def Obligations.EngineTurnEndsInOneOfThreeWays : Prop :=
  ∀ s : State, s.status.busy = true →
    ∃ t, engineTurn s = .next t ∧
      ((EndsInSuccess s t ∧ SameSetup s t) ∨ (∃ e, e ≠ .none ∧ t = s.withError e) ∨ t = s.withUninitRead)

/-- R95: after a model fault the engine is stuck: BUSY stays 1, and its turn changes nothing any more. -/
def Obligations.ModelFaultLeavesEngineStuck : Prop :=
  ∀ s t : State, s.status.busy = true → engineTurn s = .next t → t.status.busy = true →
    t = s.withUninitRead ∧ engineTurn t = .next t

/-- R105: a command reissued with the same registers and BUF reports the same error, and changes nothing but STATUS. -/
def Obligations.ReissuedCommandReportsSameError : Prop :=
  ∀ (s : State) (e : ErrCode), s.status.busy = true → engineTurn s = .next (s.withError e) →
    engineTurn ((s.withError e).issue s.cmd) = .next (s.withError e)

/-! ### STATUS and the whole machine (R21 to R26, R38, R39, R105) -/

/-- R21: the bits of STATUS as the host reads it, reserved bits 0, with the codes of R100. -/
def Obligations.StatusWordLayout : Prop :=
  (∀ s : State,
    (s.readReg .status).getLsbD 0 = s.status.busy ∧
    (s.readReg .status).getLsbD 1 = s.status.done ∧
    (s.readReg .status).getLsbD 2 = s.status.err ∧
    (s.readReg .status).getLsbD 3 = s.status.sticky ∧
    (s.readReg .status).extractLsb' 4 4 = 0 ∧
    (s.readReg .status).extractLsb' 8 4 = s.status.errcode.code ∧
    (s.readReg .status).extractLsb' 12 20 = 0) ∧
  ErrCode.code .none = 0 ∧ ErrCode.code .length = 1 ∧ ErrCode.code .format = 2 ∧ ErrCode.code .illegalCmd = 3 ∧
  ErrCode.code .badOperand = 4 ∧ ErrCode.code .range = 5 ∧ ErrCode.code .overlap = 6 ∧ ErrCode.code .nonfinite = 7 ∧
  ErrCode.code .fieldOverflow = 8

/-- R25: STICKY is set by a completion with a device error, left alone by issue and by success, cleared by a host write of
STATUS with bit 3 = 1 and by reset. -/
def Obligations.StickyRule : Prop :=
  (∀ s t : State, s.status.busy = true → engineTurn s = .next t → t.status.busy = false →
    t.status.sticky = (t.status.err || s.status.sticky)) ∧
  (∀ (s : State) (v : QWord), s.status.busy = false →
    (s.hostAccess (.write .reg 0x00 .w4 v)).status.sticky = s.status.sticky) ∧
  (∀ (s : State) (v : QWord), s.status.busy = false → v.getLsbD 3 = true →
    (s.hostAccess (.write .reg 0x04 .w4 v)).status.sticky = false) ∧
  (∀ (s : State) (v : QWord), s.status.busy = false → v.getLsbD 3 = false →
    (s.hostAccess (.write .reg 0x04 .w4 v)).status.sticky = s.status.sticky) ∧
  (∀ s : State, s.resetEvent.status.sticky = false)

/-- R105: only a host write of STATUS with bit 3 = 1, while BUSY = 0, or a reset clears STICKY. -/
def Obligations.OnlyStatusWriteOrResetClearsSticky : Prop :=
  ∀ s t : State, step s = .next t → s.status.sticky = true → t.status.sticky = false →
    (∃ rest, s.schedule = .reset :: rest) ∨
    (s.status.busy = false ∧
      ∃ v rest, s.program = .access (.write .reg 0x04 .w4 v) :: rest ∧ v.getLsbD 3 = true)

/-- R22: only an issue sets BUSY, with the word written; only a completion, or a reset, clears it. -/
def Obligations.OnlyIssueSetsBusyOnlyCompletionClearsIt : Prop :=
  (∀ s t : State, step s = .next t → s.status.busy = false → t.status.busy = true →
    ∃ v rest, s.program = .access (.write .reg 0x00 .w4 v) :: rest ∧ t.cmd = v.setWidth 32 ∧ t.status.done = false) ∧
  (∀ s t : State, step s = .next t → s.status.busy = true → t.status.busy = false →
    (∃ rest, s.schedule = .reset :: rest ∧ t.status.done = false) ∨
    (((∃ rest, s.schedule = .engine :: rest) ∨ s.schedule = []) ∧ t.status.done = true))

/-- R38, R62: while BUSY = 1 no step but a reset changes CMD, CTRL or an operand register, and none but the completion
changes BUF, RES0, RES1 or an HDR register. -/
def Obligations.LatchedCommandAndOperandsAreFixedWhileBusy : Prop :=
  ∀ s t : State, step s = .next t → s.status.busy = true → (∀ rest, s.schedule ≠ .reset :: rest) →
    (t.cmd = s.cmd ∧ t.strict = s.strict ∧ t.src = s.src ∧ t.src2 = s.src2 ∧ t.dst = s.dst ∧ t.count = s.count ∧
      t.nch = s.nch ∧ t.rate = s.rate ∧ t.bufSize = s.bufSize) ∧
    (t.status.busy = true → t.buf = s.buf ∧ t.res0 = s.res0 ∧ t.res1 = s.res1 ∧ t.hdr = s.hdr)

/-- R39: the fault record starts empty, and no step removes an entry, reset included. -/
def Obligations.FaultRecordOnlyGrows : Prop :=
  (∀ size : Word, (State.resetWith size).faults = { uninitRead := false, busError := false, hazard := false }) ∧
  (∀ (s t : State) (k : FaultKind), step s = .next t → s.faults.has k = true → t.faults.has k = true)

/-- R70: a command's outcome depends on BUF and on the registers the table of R70 names for it, and on no other operand
register. -/
def Obligations.CommandsReadOnlyTheirOperands : Prop :=
  ∀ (i : Instr) (s₁ s₂ : State), SameOperands i s₁ s₂ → s₁.buf = s₂.buf → s₁.bufSize = s₂.bufSize →
    s₁.status = s₂.status → s₁.faults = s₂.faults → s₁.res0 = s₂.res0 → s₁.res1 = s₂.res1 → s₁.hdr = s₂.hdr →
    ∃ t₁ t₂, exec i s₁ = .next t₁ ∧ exec i s₂ = .next t₂ ∧
      t₁.buf = t₂.buf ∧ t₁.status = t₂.status ∧ t₁.faults = t₂.faults ∧ t₁.res0 = t₂.res0 ∧ t₁.res1 = t₂.res1 ∧
      t₁.hdr = t₂.hdr

/-- The frame of every command: whatever next state it gives, CMD, CTRL, the operand registers, BUFSIZE and the host's side
are unchanged; the HDR registers are unchanged but for HPARSE; the fault record is unchanged unless UNINIT_READ is all that
happened; and every byte of BUF outside the bytes the command stores from DST on reads as before. -/
def Obligations.FrameOfEveryCommand : Prop :=
  ∀ (i : Instr) (s t : State), exec i s = .next t →
    SameSetup s { t with faults := s.faults } ∧
    (i ≠ .hparse → t.hdr = s.hdr) ∧
    (t.faults = s.faults ∨ t = s.withUninitRead) ∧
    SameOutside s t s.dstVal (storedBytes i s)

/-! ### Host accesses (R36, R37, R49 to R51, R113) -/

/-- The operand registers and CTRL: a host write while BUSY = 0 stores its value and nothing else, and what is read back has
the reserved bits 0 (R27 to R31, R37, R54). -/
def Obligations.OperandRegisterWrites : Prop :=
  ∀ (s : State) (v : QWord), s.status.busy = false →
    s.hostAccess (.write .reg 0x0C .w4 v) = { s with src := v.setWidth 32, returned := none } ∧
    s.hostAccess (.write .reg 0x10 .w4 v) = { s with src2 := v.setWidth 32, returned := none } ∧
    s.hostAccess (.write .reg 0x14 .w4 v) = { s with dst := v.setWidth 32, returned := none } ∧
    s.hostAccess (.write .reg 0x18 .w4 v) = { s with count := v.setWidth 32, returned := none } ∧
    s.hostAccess (.write .reg 0x20 .w4 v) = { s with rate := v.setWidth 32, returned := none } ∧
    s.hostAccess (.write .reg 0x1C .w4 v) = { s with nch := v.setWidth 16, returned := none } ∧
    s.hostAccess (.write .reg 0x08 .w4 v) = { s with strict := v.getLsbD 0, returned := none } ∧
    (s.hostAccess (.write .reg 0x1C .w4 v)).readReg .nch = v.setWidth 32 &&& 0x0000FFFF ∧
    (s.hostAccess (.write .reg 0x08 .w4 v)).readReg .ctrl = v.setWidth 32 &&& 0x00000001

/-- R36: while BUSY = 0, a host write to RES0, RES1, CAPS, BUFSIZE or an HDR register has no effect and is no error, and a
write of STATUS touches STICKY alone. (`returned` is the model's own field, log 4.) -/
def Obligations.ReadOnlyRegistersIgnoreWrites : Prop :=
  (∀ (s : State) (r : Reg) (v : QWord), s.status.busy = false →
    (r = .res0 ∨ r = .res1 ∨ r = .caps ∨ r = .bufsize ∨ ∃ k, r = .hdr k) →
    s.hostAccess (.write .reg r.offset .w4 v) = { s with returned := none }) ∧
  (∀ (s : State) (v : QWord), s.status.busy = false →
    s.hostAccess (.write .reg 0x04 .w4 v) =
      { s with status := { s.status with sticky := s.status.sticky && !v.getLsbD 3 }, returned := none })

/-- A legal host read of a register returns its value and changes nothing of the device: of every register while BUSY = 0,
and of those R113 lists while BUSY = 1. -/
def Obligations.RegisterReadHasNoSideEffect : Prop :=
  ∀ (s : State) (r : Reg), (s.status.busy = false ∨ r ∈ readableWhileBusy) →
    s.hostAccess (.read .reg r.offset .w4) = { s with returned := some ((s.readReg r).setWidth 64) }

/-- While BUSY = 0, a REG access of a width other than 4 bytes, at an offset that is not a multiple of 4, at an unassigned
offset, or at 0x100 or more, records BUS_ERROR, changes nothing else and returns no value (R49). -/
def Obligations.IllegalRegAccessIsBusError : Prop :=
  ∀ (s : State) (off : Nat) (w : Width) (v : QWord), s.status.busy = false →
    (w ≠ .w4 ∨ off % 4 ≠ 0 ∨ off = 0x34 ∨ off = 0x38 ∨ off = 0x3C ∨ 0x74 ≤ off) →
    s.hostAccess (.read .reg off w) = { s with faults := { s.faults with busError := true }, returned := none } ∧
    s.hostAccess (.write .reg off w v) = { s with faults := { s.faults with busError := true }, returned := none }

/-- While BUSY = 0, a BUF access that is not fully inside BUF records BUS_ERROR and changes nothing else (R50). That a read
which also covers an unwritten byte inside BUF records BUS_ERROR alone is the model's choice (log 15). -/
def Obligations.BufAccessOutsideIsBusError : Prop :=
  ∀ (s : State) (a : Nat) (w : Width) (v : QWord), s.status.busy = false → s.bufBytes < a + w.bytes →
    s.hostAccess (.read .buf a w) = { s with faults := { s.faults with busError := true }, returned := none } ∧
    s.hostAccess (.write .buf a w v) = { s with faults := { s.faults with busError := true }, returned := none }

/-- R50, R46: a BUF write inside BUF stores its bytes in little-endian order and no other byte, records no fault, and a read
of the same width at the same address then returns the value modulo the width. -/
def Obligations.BufWriteReadsBackLittleEndian : Prop :=
  ∀ (s : State) (a : Nat) (w : Width) (v : QWord), s.status.busy = false → a + w.bytes ≤ s.bufBytes →
    (∀ k < w.bytes, (s.hostAccess (.write .buf a w v)).buf.read (a + k) = some (v.extractLsb' (8 * k) 8)) ∧
    SameOutside s (s.hostAccess (.write .buf a w v)) a w.bytes ∧
    (∃ m, s.hostAccess (.write .buf a w v) = { s with buf := m, returned := none }) ∧
    ((s.hostAccess (.write .buf a w v)).hostAccess (.read .buf a w)).returned
      = some (BitVec.ofNat 64 (v.toNat % 2 ^ (8 * w.bytes)))

/-- R51, while BUSY = 0 and inside BUF: a host read that covers an unwritten byte records UNINIT_READ and does nothing else; a
host write makes the bytes it writes written. Where another fault applies as well see AccessWhileBusyIsHazard (log 14) and
BufAccessOutsideIsBusError (log 15). `returned` is the model's own field (log 4). -/
def Obligations.UnwrittenHostReadIsUninitRead : Prop :=
  ∀ (s : State) (a : Nat) (w : Width), s.status.busy = false → a + w.bytes ≤ s.bufBytes →
    ((∃ k < w.bytes, s.buf.read (a + k) = none) →
      s.hostAccess (.read .buf a w) = { s.withUninitRead with returned := none }) ∧
    (∀ v : QWord, (s.hostAccess (.write .buf a w v)).written a w.bytes)

/-- R113: while BUSY = 1, every host access but the register reads it lists records HAZARD and has no other effect. Only one
that R49 or R50 forbids as well records BUS_ERROR too (the model's reading, log 7); a BUF read of an unwritten byte records
HAZARD and never UNINIT_READ (the model's choice, logs 14 and 15). -/
def Obligations.AccessWhileBusyIsHazard : Prop :=
  ∀ (s : State) (a : Access), s.status.busy = true → (∀ r ∈ readableWhileBusy, a ≠ .read .reg r.offset .w4) →
    s.hostAccess a =
      { s with
        faults := { s.faults with hazard := true, busError := s.faults.busError || s.forbids a }
        returned := none }

/-- R76: `wait` reads STATUS; while BUSY = 1 the host stays at it, and once BUSY = 0 it goes on. It changes nothing of the
device. The same holds of the step that is the host's turn (log 3). -/
def Obligations.WaitPollsUntilNotBusy : Prop :=
  ∀ (s : State) (prog : List HostOp), s.program = .wait :: prog →
    (s.status.busy = true →
      s.hostTurn = { s with returned := some ((s.readReg .status).setWidth 64) } ∧
      ∀ rest, s.schedule = .host :: rest →
        step s = .next { s with schedule := rest, returned := some ((s.readReg .status).setWidth 64) }) ∧
    (s.status.busy = false →
      s.hostTurn = { s with program := prog, returned := some ((s.readReg .status).setWidth 64) } ∧
      (∀ rest, s.schedule = .host :: rest →
        step s =
          .next { s with program := prog, schedule := rest, returned := some ((s.readReg .status).setWidth 64) }) ∧
      (s.schedule = [] → step s = .next { s with program := prog, returned := some ((s.readReg .status).setWidth 64) }))

/-! ### NOP (R93) -/

/-- R93: NOP, the word 0, succeeds with RES0 = RES1 = 0 and changes nothing else. -/
def Obligations.NopCompletes : Prop :=
  decode 0x00000000 = .instr .nop ∧
  ∀ s : State, exec .nop s = .next
    { s with
      res0 := 0
      res1 := 0
      status := { busy := false, done := true, err := false, sticky := s.status.sticky, errcode := .none } }

/-! ### MERGE and SEPARATE (R77 to R80, R102) -/

/-- MERGE with NCH = 0 succeeds with RES0 = RES1 = 0 whatever SRC and DST are, and changes nothing else (R78). -/
def Obligations.MergeOfNoChannelsIsEmpty : Prop :=
  ∀ s : State, s.nchVal = 0 → exec .merge s = .next
    { s with
      res0 := 0
      res1 := 0
      status := { busy := false, done := true, err := false, sticky := s.status.sticky, errcode := .none } }

/-- R78, R77: where the table, the channels and the output lie in BUF, the output meets no input, and the samples it reads
are written, MERGE succeeds: frame `k` of channel `c` is copied bit for bit to element `k * N + c` of the output, for the
`L` frames of the shortest channel; RES0 = N * L and RES1 = L; nothing else changes. -/
def Obligations.MergeInterleavesChannels : Prop :=
  ∀ (s : State) (base len : Nat → Nat) (L : Nat),
    0 < s.nchVal → DescriptorsAre s base len → (∀ c < s.nchVal, s.inBuf (base c) (8 * len c)) →
    IsShortest s.nchVal len L → s.inBuf s.dstVal (8 * s.nchVal * L) →
    ¬ overlaps s.dstVal (8 * s.nchVal * L) s.srcVal (8 * s.nchVal) →
    (∀ c < s.nchVal, ¬ overlaps s.dstVal (8 * s.nchVal * L) (base c) (8 * len c)) →
    (∀ c < s.nchVal, s.written (base c) (8 * L)) →
    ∃ t, exec .merge s = .next t ∧ EndsInSuccess s t ∧ SameSetup s t ∧ t.hdr = s.hdr ∧
      t.res0.toNat = s.nchVal * L ∧ t.res1.toNat = L ∧
      (∀ c < s.nchVal, ∀ k < L, ∃ v, s.buf.memRead (base c + 8 * k) 8 = some v ∧
        t.buf.memRead (s.dstVal + 8 * (k * s.nchVal + c)) 8 = some v) ∧
      SameOutside s t s.dstVal (8 * s.nchVal * L)

/-- MERGE's row of R102: the first failing check decides, in the order table range, descriptor reads, channel ranges, output
range, overlap, sample reads. -/
def Obligations.MergeOrderOfChecks : Prop :=
  ∀ s : State, 0 < s.nchVal →
    (¬ s.inBuf s.srcVal (8 * s.nchVal) → exec .merge s = .next (s.withError .range)) ∧
    (s.inBuf s.srcVal (8 * s.nchVal) → ¬ s.written s.srcVal (8 * s.nchVal) →
      exec .merge s = .next s.withUninitRead) ∧
    (∀ (base len : Nat → Nat) (L : Nat), DescriptorsAre s base len → IsShortest s.nchVal len L →
      ((∃ c < s.nchVal, ¬ s.inBuf (base c) (8 * len c)) → exec .merge s = .next (s.withError .range)) ∧
      ((∀ c < s.nchVal, s.inBuf (base c) (8 * len c)) →
        (¬ s.inBuf s.dstVal (8 * s.nchVal * L) → exec .merge s = .next (s.withError .range)) ∧
        (s.inBuf s.dstVal (8 * s.nchVal * L) →
          ((overlaps s.dstVal (8 * s.nchVal * L) s.srcVal (8 * s.nchVal) ∨
              ∃ c < s.nchVal, overlaps s.dstVal (8 * s.nchVal * L) (base c) (8 * len c)) →
            exec .merge s = .next (s.withError .overlap)) ∧
          ((¬ overlaps s.dstVal (8 * s.nchVal * L) s.srcVal (8 * s.nchVal) ∧
              ∀ c < s.nchVal, ¬ overlaps s.dstVal (8 * s.nchVal * L) (base c) (8 * len c)) →
            (∃ c < s.nchVal, ¬ s.written (base c) (8 * L)) → exec .merge s = .next s.withUninitRead))))

/-- R79: where the input and the output lie in BUF and do not meet, and the samples it reads are written, SEPARATE succeeds:
with L = floor(n / N), element `k * N + c` of the input is copied bit for bit to sample `k` of channel `c`, which starts at
DST + 8 * c * L; RES0 = L and RES1 = n mod N; nothing else changes. The last n mod N samples are not read. -/
def Obligations.SeparateSplitsChannels : Prop :=
  ∀ s : State, 0 < s.nchVal → s.inBuf s.srcVal (8 * s.countVal) →
    s.inBuf s.dstVal (8 * s.nchVal * (s.countVal / s.nchVal)) →
    ¬ overlaps s.dstVal (8 * s.nchVal * (s.countVal / s.nchVal)) s.srcVal (8 * s.countVal) →
    s.written s.srcVal (8 * (s.nchVal * (s.countVal / s.nchVal))) →
    ∃ t, exec .separate s = .next t ∧ EndsInSuccess s t ∧ SameSetup s t ∧ t.hdr = s.hdr ∧
      t.res0.toNat = s.countVal / s.nchVal ∧ t.res1.toNat = s.countVal % s.nchVal ∧
      (∀ c < s.nchVal, ∀ k < s.countVal / s.nchVal,
        ∃ v, s.buf.memRead (s.srcVal + 8 * (k * s.nchVal + c)) 8 = some v ∧
          t.buf.memRead (s.dstVal + 8 * c * (s.countVal / s.nchVal) + 8 * k) 8 = some v) ∧
      SameOutside s t s.dstVal (8 * s.nchVal * (s.countVal / s.nchVal))

/-- SEPARATE's row of R102: BAD_OPERAND, input range, output range, overlap, sample reads. -/
def Obligations.SeparateOrderOfChecks : Prop :=
  ∀ s : State,
    (s.nchVal = 0 → exec .separate s = .next (s.withError .badOperand)) ∧
    (0 < s.nchVal →
      (¬ s.inBuf s.srcVal (8 * s.countVal) → exec .separate s = .next (s.withError .range)) ∧
      (s.inBuf s.srcVal (8 * s.countVal) →
        (¬ s.inBuf s.dstVal (8 * s.nchVal * (s.countVal / s.nchVal)) →
          exec .separate s = .next (s.withError .range)) ∧
        (s.inBuf s.dstVal (8 * s.nchVal * (s.countVal / s.nchVal)) →
          (overlaps s.dstVal (8 * s.nchVal * (s.countVal / s.nchVal)) s.srcVal (8 * s.countVal) →
            exec .separate s = .next (s.withError .overlap)) ∧
          (¬ overlaps s.dstVal (8 * s.nchVal * (s.countVal / s.nchVal)) s.srcVal (8 * s.countVal) →
            ¬ s.written s.srcVal (8 * (s.nchVal * (s.countVal / s.nchVal))) →
            exec .separate s = .next s.withUninitRead))))

/-- R80: SEPARATE of what MERGE wrote gives back the first L samples of every channel, L the shortest length, with
RES1 = 0. Between the two commands the host points SRC at the interleaved samples, COUNT at their number and DST at a second
output that does not meet them. -/
def Obligations.SeparateInvertsMerge : Prop :=
  ∀ (s : State) (base len : Nat → Nat) (L : Nat) (dst' : Word),
    0 < s.nchVal → DescriptorsAre s base len → (∀ c < s.nchVal, s.inBuf (base c) (8 * len c)) →
    IsShortest s.nchVal len L → s.inBuf s.dstVal (8 * s.nchVal * L) →
    ¬ overlaps s.dstVal (8 * s.nchVal * L) s.srcVal (8 * s.nchVal) →
    (∀ c < s.nchVal, ¬ overlaps s.dstVal (8 * s.nchVal * L) (base c) (8 * len c)) →
    (∀ c < s.nchVal, s.written (base c) (8 * L)) →
    s.inBuf dst'.toNat (8 * s.nchVal * L) →
    ¬ overlaps dst'.toNat (8 * s.nchVal * L) s.dstVal (8 * s.nchVal * L) →
    ∃ t w, exec .merge s = .next t ∧
      exec .separate { t with src := s.dst, count := BitVec.ofNat 32 (s.nchVal * L), dst := dst' } = .next w ∧
      EndsInSuccess t w ∧ w.res0.toNat = L ∧ w.res1 = 0 ∧
      ∀ c < s.nchVal, ∀ k < L, ∃ v, s.buf.memRead (base c + 8 * k) 8 = some v ∧
        w.buf.memRead (dst'.toNat + 8 * c * L + 8 * k) 8 = some v

/-! ### The sample codec (R81 to R87, R102) -/

/-- Fifteen of the vectors V-Q1 to V-Q26 of 95_test_vectors.md: truncation toward zero, the wrap modulo 2^16, and NONFINITE. -/
def Obligations.QuantizeVectors : Prop :=
  quantize 0x3FF0000000000000 = some (BitVec.ofInt 16 32767) ∧
  quantize 0xBFF0000000000000 = some (BitVec.ofInt 16 (-32767)) ∧
  quantize 0x8000000000000000 = some 0 ∧
  quantize 0x3FE0000000000000 = some (BitVec.ofInt 16 16383) ∧
  quantize 0xBFB999999999999A = some (BitVec.ofInt 16 (-3276)) ∧
  quantize 0x3FF0002000400080 = some (BitVec.ofInt 16 (-32768)) ∧
  quantize 0x3FF8000000000000 = some (BitVec.ofInt 16 (-16386)) ∧
  quantize 0xBFF8000000000000 = some (BitVec.ofInt 16 16386) ∧
  quantize 0x4000000000000000 = some (BitVec.ofInt 16 (-2)) ∧
  quantize 0x4130000000000000 = some 0 ∧
  quantize 0x7F0000200040007F = some 0 ∧
  quantize 0x7F00002000400080 = none ∧
  quantize 0x7FF8000000000000 = none ∧
  quantize 0x7FF0000000000000 = none ∧
  quantize 0xFFF0000000000000 = none

/-- R11, R83: the product is rounded to nearest, ties to even: where it is finite, no finite binary64 value is nearer to the
exact product, and where another value is equally near, the significand of the result is even. -/
def Obligations.ProductIsNearest : Prop :=
  ∀ a b q : QWord, isFinite a = true → isFinite b = true → isFinite q = true → isFinite (mulRne a b) = true →
    |realValue (mulRne a b) - realValue a * realValue b| ≤ |realValue q - realValue a * realValue b| ∧
    (realValue q ≠ realValue (mulRne a b) →
      |realValue q - realValue a * realValue b| = |realValue (mulRne a b) - realValue a * realValue b| →
      mant (mulRne a b) % 2 = 0)

/-- R81: the product with 32767 overflows, so that `quantize` answers NONFINITE, exactly from the encoding
0x7F00002000400080 of |s| on; NaN and the infinities lie above it. -/
def Obligations.NonfiniteExactlyFromThreshold : Prop :=
  ∀ b : QWord, quantize b = none ↔ 0x7F00002000400080 ≤ b.toNat % 2 ^ 63

/-- R83: every subnormal (and zero) quantizes to 0. -/
def Obligations.SubnormalsQuantizeToZero : Prop :=
  ∀ b : QWord, expField b = 0 → quantize b = some 0

/-- R86: for every finite s with |s| <= 1 no wrap occurs, n is 0 or has the sign of s, and |s * 32767 - n| < 1;
dequantize(n) is then the binary64 nearest n / 32767. -/
def Obligations.QuantizationErrorBelowOneStep : Prop :=
  ∀ b : QWord, isFinite b = true → |realValue b| ≤ 1 →
    ∃ n : Int, quantize b = some (BitVec.ofInt 16 n) ∧ -32767 ≤ n ∧ n ≤ 32767 ∧
      (n = 0 ∨ (0 < n ∧ 0 < realValue b) ∨ (n < 0 ∧ realValue b < 0)) ∧
      |realValue b * 32767 - n| < 1 ∧ |realValue b - (n : ℚ) / 32767| < 1 / 32767 ∧
      ∀ q : QWord, isFinite q = true →
        |realValue (dequantize (BitVec.ofInt 16 n)) - (n : ℚ) / 32767| ≤ |realValue q - (n : ℚ) / 32767|

/-- R82: dequantize gives a finite value nearest v / 32767, in [-1.000030518509476, 1.0], never a subnormal and never -0.0;
0 gives +0.0. -/
def Obligations.DequantizeIsNearestAndInRange : Prop :=
  ∀ v : Pcm,
    isFinite (dequantize v) = true ∧
    (∀ q : QWord, isFinite q = true →
      |realValue (dequantize v) - (v.toInt : ℚ) / 32767| ≤ |realValue q - (v.toInt : ℚ) / 32767|) ∧
    realValue 0xBFF0002000400080 ≤ realValue (dequantize v) ∧ realValue (dequantize v) ≤ 1 ∧
    (v = 0 → dequantize v = 0) ∧ (v ≠ 0 → expField (dequantize v) ≠ 0)

/-- R87: for every 16-bit v, quantize(dequantize(v)) = v. -/
def Obligations.PcmRoundTrip : Prop :=
  ∀ v : Pcm, quantize (dequantize v) = some v

/-- R84: where the input and the output lie in BUF and do not meet, and every input sample is written and quantizes, QENC
succeeds: sample `k` of the payload is quantize of sample `k` of the input, little-endian; RES0 = 2n and RES1 = 0; nothing
else changes, so a wrap sets no flag. -/
def Obligations.QencWritesPayload : Prop :=
  ∀ (s : State) (x : Nat → QWord) (q : Nat → Pcm),
    s.inBuf s.srcVal (8 * s.countVal) → s.inBuf s.dstVal (2 * s.countVal) →
    ¬ overlaps s.dstVal (2 * s.countVal) s.srcVal (8 * s.countVal) →
    (∀ k < s.countVal, s.buf.memRead (s.srcVal + 8 * k) 8 = some (x k).toNat) →
    (∀ k < s.countVal, quantize (x k) = some (q k)) →
    ∃ t, exec .qenc s = .next t ∧ EndsInSuccess s t ∧ SameSetup s t ∧ t.hdr = s.hdr ∧
      t.res0.toNat = 2 * s.countVal ∧ t.res1 = 0 ∧
      (∀ k < s.countVal, t.buf.memRead (s.dstVal + 2 * k) 2 = some (q k).toNat) ∧
      SameOutside s t s.dstVal (2 * s.countVal)

/-- QENC's row of R102: input range, output range, overlap, sample reads, NONFINITE. -/
def Obligations.QencOrderOfChecks : Prop :=
  ∀ s : State,
    (¬ s.inBuf s.srcVal (8 * s.countVal) → exec .qenc s = .next (s.withError .range)) ∧
    (s.inBuf s.srcVal (8 * s.countVal) →
      (¬ s.inBuf s.dstVal (2 * s.countVal) → exec .qenc s = .next (s.withError .range)) ∧
      (s.inBuf s.dstVal (2 * s.countVal) →
        (overlaps s.dstVal (2 * s.countVal) s.srcVal (8 * s.countVal) →
          exec .qenc s = .next (s.withError .overlap)) ∧
        (¬ overlaps s.dstVal (2 * s.countVal) s.srcVal (8 * s.countVal) →
          (¬ s.written s.srcVal (8 * s.countVal) → exec .qenc s = .next s.withUninitRead) ∧
          (∀ x : Nat → QWord, (∀ k < s.countVal, s.buf.memRead (s.srcVal + 8 * k) 8 = some (x k).toNat) →
            (∃ k < s.countVal, quantize (x k) = none) → exec .qenc s = .next (s.withError .nonfinite)))))

/-- R85: where n is even, the input and the output lie in BUF and do not meet, and the payload is written, QDEC succeeds:
sample `k` of the output is dequantize of sample `k` of the payload; RES0 = n / 2 and RES1 = 0; nothing else changes. -/
def Obligations.QdecWritesSamples : Prop :=
  ∀ (s : State) (v : Nat → Pcm),
    s.countVal % 2 = 0 → s.inBuf s.srcVal s.countVal → s.inBuf s.dstVal (8 * (s.countVal / 2)) →
    ¬ overlaps s.dstVal (8 * (s.countVal / 2)) s.srcVal s.countVal →
    (∀ k < s.countVal / 2, s.buf.memRead (s.srcVal + 2 * k) 2 = some (v k).toNat) →
    ∃ t, exec .qdec s = .next t ∧ EndsInSuccess s t ∧ SameSetup s t ∧ t.hdr = s.hdr ∧
      t.res0.toNat = s.countVal / 2 ∧ t.res1 = 0 ∧
      (∀ k < s.countVal / 2, t.buf.memRead (s.dstVal + 8 * k) 8 = some (dequantize (v k)).toNat) ∧
      SameOutside s t s.dstVal (8 * (s.countVal / 2))

/-- QDEC's row of R102: LENGTH first, then input range, output range, overlap, payload reads. -/
def Obligations.QdecOrderOfChecks : Prop :=
  ∀ s : State,
    (s.countVal % 2 = 1 → exec .qdec s = .next (s.withError .length)) ∧
    (s.countVal % 2 = 0 →
      (¬ s.inBuf s.srcVal s.countVal → exec .qdec s = .next (s.withError .range)) ∧
      (s.inBuf s.srcVal s.countVal →
        (¬ s.inBuf s.dstVal (8 * (s.countVal / 2)) → exec .qdec s = .next (s.withError .range)) ∧
        (s.inBuf s.dstVal (8 * (s.countVal / 2)) →
          (overlaps s.dstVal (8 * (s.countVal / 2)) s.srcVal s.countVal →
            exec .qdec s = .next (s.withError .overlap)) ∧
          (¬ overlaps s.dstVal (8 * (s.countVal / 2)) s.srcVal s.countVal →
            ¬ s.written s.srcVal s.countVal → exec .qdec s = .next s.withUninitRead))))

/-! ### The container codec (R72, R88 to R92, R102) -/

/-- R89, R72, R88: where the 44 bytes at DST lie in BUF and every field fits, HBUILD succeeds: the header's thirteen fields,
read back at their offsets, hold the tags and the formulas of R88; RES0 = 44 and RES1 = data_size; nothing else changes. -/
def Obligations.HbuildWritesHeader : Prop :=
  ∀ s : State, s.inBuf s.dstVal 44 → s.countVal ≤ 2147483629 → s.nchVal ≤ 32767 →
    s.rateVal * (2 * s.nchVal) ≤ 4294967295 →
    ∃ t, exec .hbuild s = .next t ∧ EndsInSuccess s t ∧ SameSetup s t ∧ t.hdr = s.hdr ∧
      t.res0 = 44 ∧ t.res1.toNat = 2 * s.countVal ∧
      t.buf.memRead s.dstVal 4 = some 0x46464952 ∧
      t.buf.memRead (s.dstVal + 4) 4 = some (36 + 2 * s.countVal) ∧
      t.buf.memRead (s.dstVal + 8) 4 = some 0x45564157 ∧
      t.buf.memRead (s.dstVal + 12) 4 = some 0x20746D66 ∧
      t.buf.memRead (s.dstVal + 16) 4 = some 16 ∧
      t.buf.memRead (s.dstVal + 20) 2 = some 1 ∧
      t.buf.memRead (s.dstVal + 22) 2 = some s.nchVal ∧
      t.buf.memRead (s.dstVal + 24) 4 = some s.rateVal ∧
      t.buf.memRead (s.dstVal + 28) 4 = some (s.rateVal * (2 * s.nchVal)) ∧
      t.buf.memRead (s.dstVal + 32) 2 = some (2 * s.nchVal) ∧
      t.buf.memRead (s.dstVal + 34) 2 = some 16 ∧
      t.buf.memRead (s.dstVal + 36) 4 = some 0x61746164 ∧
      t.buf.memRead (s.dstVal + 40) 4 = some (2 * s.countVal) ∧
      SameOutside s t s.dstVal 44

/-- HBUILD's row of R102 and the limits of R89: RANGE first, then FIELD_OVERFLOW when C > 2147483629, N > 32767 or
R * 2N > 4294967295. -/
def Obligations.HbuildOrderOfChecks : Prop :=
  ∀ s : State,
    (¬ s.inBuf s.dstVal 44 → exec .hbuild s = .next (s.withError .range)) ∧
    (s.inBuf s.dstVal 44 →
      (2147483629 < s.countVal ∨ 32767 < s.nchVal ∨ 4294967295 < s.rateVal * (2 * s.nchVal)) →
      exec .hbuild s = .next (s.withError .fieldOverflow))

/-- R90: where the header, the payload and the image lie in BUF, the image meets neither input, and both are written,
ASSEMBLE succeeds: the image is the 44 header bytes and then the n payload bytes; RES0 = 44 + n and RES1 = 0; nothing else
changes. The header's contents are not checked. -/
def Obligations.AssembleConcatenates : Prop :=
  ∀ s : State, s.inBuf s.srcVal 44 → s.inBuf s.src2Val s.countVal → s.inBuf s.dstVal (44 + s.countVal) →
    ¬ overlaps s.dstVal (44 + s.countVal) s.srcVal 44 →
    ¬ overlaps s.dstVal (44 + s.countVal) s.src2Val s.countVal →
    s.written s.srcVal 44 → s.written s.src2Val s.countVal →
    ∃ t, exec .assemble s = .next t ∧ EndsInSuccess s t ∧ SameSetup s t ∧ t.hdr = s.hdr ∧
      t.res0.toNat = 44 + s.countVal ∧ t.res1 = 0 ∧
      (∀ k < 44, t.buf.read (s.dstVal + k) = s.buf.read (s.srcVal + k)) ∧
      (∀ k < s.countVal, t.buf.read (s.dstVal + 44 + k) = s.buf.read (s.src2Val + k)) ∧
      SameOutside s t s.dstVal (44 + s.countVal)

/-- ASSEMBLE's row of R102: header range, payload range, image range, overlap with the header, overlap with the payload,
reads. -/
def Obligations.AssembleOrderOfChecks : Prop :=
  ∀ s : State,
    ((¬ s.inBuf s.srcVal 44 ∨ ¬ s.inBuf s.src2Val s.countVal ∨ ¬ s.inBuf s.dstVal (44 + s.countVal)) →
      exec .assemble s = .next (s.withError .range)) ∧
    (s.inBuf s.srcVal 44 → s.inBuf s.src2Val s.countVal → s.inBuf s.dstVal (44 + s.countVal) →
      ((overlaps s.dstVal (44 + s.countVal) s.srcVal 44 ∨
          overlaps s.dstVal (44 + s.countVal) s.src2Val s.countVal) →
        exec .assemble s = .next (s.withError .overlap)) ∧
      (¬ overlaps s.dstVal (44 + s.countVal) s.srcVal 44 →
        ¬ overlaps s.dstVal (44 + s.countVal) s.src2Val s.countVal →
        (¬ s.written s.srcVal 44 ∨ ¬ s.written s.src2Val s.countVal) →
        exec .assemble s = .next s.withUninitRead))

/-- R91, R35: where the image is at least 44 bytes, lies in BUF, its header is written and, with STRICT = 1, its tags match,
HPARSE succeeds: HDRk holds the k-th header field, zero-extended; RES0 = F + 44 and RES1 = n - 44; no BUF byte and nothing
else changes. Payload bytes need not be written. -/
def Obligations.HparseReadsHeaderFields : Prop :=
  ∀ s : State, 44 ≤ s.countVal → s.inBuf s.srcVal s.countVal → s.written s.srcVal 44 →
    (s.strict = true → TagsAt s.buf s.srcVal) →
    ∃ t, exec .hparse s = .next t ∧ EndsInSuccess s t ∧ SameSetup s t ∧
      t.res0.toNat = s.srcVal + 44 ∧ t.res1.toNat = s.countVal - 44 ∧
      (∀ k : Fin 13, s.buf.memRead (s.srcVal + hdrFieldOffset k) (hdrFieldSize k) = some (t.readReg (.hdr k)).toNat) ∧
      SameBuf s t

/-- HPARSE's row of R102: FORMAT for an image shorter than 44 bytes, then RANGE, then the header read, then FORMAT for a tag
that does not match, with STRICT = 1 only. -/
def Obligations.HparseOrderOfChecks : Prop :=
  ∀ s : State,
    (s.countVal < 44 → exec .hparse s = .next (s.withError .format)) ∧
    (44 ≤ s.countVal →
      (¬ s.inBuf s.srcVal s.countVal → exec .hparse s = .next (s.withError .range)) ∧
      (s.inBuf s.srcVal s.countVal →
        (¬ s.written s.srcVal 44 → exec .hparse s = .next s.withUninitRead) ∧
        (s.written s.srcVal 44 → s.strict = true → ¬ TagsAt s.buf s.srcVal →
          exec .hparse s = .next (s.withError .format))))

/-- R92: HBUILD, ASSEMBLE of that header with a payload, and HPARSE of the image give back every header field, and the
payload's address and length, in both parsing modes. Between the commands the host writes the operand registers. -/
def Obligations.HeaderRoundTrip : Prop :=
  ∀ (s : State) (d p d' n : Word),
    s.countVal ≤ 2147483629 → s.nchVal ≤ 32767 → s.rateVal * (2 * s.nchVal) ≤ 4294967295 →
    s.inBuf d.toNat 44 → s.inBuf p.toNat n.toNat → s.inBuf d'.toNat (44 + n.toNat) →
    ¬ overlaps d'.toNat (44 + n.toNat) d.toNat 44 → ¬ overlaps d'.toNat (44 + n.toNat) p.toNat n.toNat →
    s.written p.toNat n.toNat →
    ∃ t u w,
      exec .hbuild { s with dst := d } = .next t ∧
      exec .assemble { t with src := d, src2 := p, count := n, dst := d' } = .next u ∧
      exec .hparse { u with src := d', count := BitVec.ofNat 32 (44 + n.toNat) } = .next w ∧
      EndsInSuccess s w ∧
      w.readReg (.hdr 0) = 0x46464952 ∧
      (w.readReg (.hdr 1)).toNat = 36 + 2 * s.countVal ∧
      w.readReg (.hdr 2) = 0x45564157 ∧
      w.readReg (.hdr 3) = 0x20746D66 ∧
      w.readReg (.hdr 4) = 16 ∧
      w.readReg (.hdr 5) = 1 ∧
      (w.readReg (.hdr 6)).toNat = s.nchVal ∧
      (w.readReg (.hdr 7)).toNat = s.rateVal ∧
      (w.readReg (.hdr 8)).toNat = 2 * s.nchVal * s.rateVal ∧
      (w.readReg (.hdr 9)).toNat = 2 * s.nchVal ∧
      w.readReg (.hdr 10) = 16 ∧
      w.readReg (.hdr 11) = 0x61746164 ∧
      (w.readReg (.hdr 12)).toNat = 2 * s.countVal ∧
      w.res0.toNat = d'.toNat + 44 ∧ w.res1 = n

/-! ### The invariant -/

/-- The state after reset meets the invariant, for every BUF_BYTES that R7 allows; so does `State.reset`. -/
def Obligations.ResetMeetsInvariant : Prop :=
  (∀ size : Word, bufBytesWf size.toNat = true → (State.resetWith size).Inv) ∧ State.reset.Inv

/-- Every step keeps the invariant: BUF stays in its canonical form and inside BUF_BYTES, BUF_BYTES stays within its bounds,
the fields of STATUS agree with one another, and the 2-byte HDR fields stay zero-extended. -/
def Obligations.StepKeepsInvariant : Prop :=
  ∀ s t : State, s.Inv → step s = .next t → t.Inv
end

