-- ==== Sys2Proof/Laws/Binary64.lean ====
section
/-! SUPPORT. What the binary64 primitives compute (R11), as facts about rational numbers: the fields of an encoding, the
floor of log2, the nearest integer, and the one rounding every product and quotient goes through. -/

namespace Sys2Proof.Machine

/-! ### Powers of two -/

theorem pow2_pos (e : Int) : 0 < pow2 e := Nat.two_pow_pos _

theorem pow2_div (e : Int) : (pow2 e : ℚ) / pow2 (-e) = (2 : ℚ) ^ e := by
  unfold pow2
  rcases le_total 0 e with h | h
  · have h1 : (-e).toNat = 0 := by omega
    have h2 : (2 : ℚ) ^ e = 2 ^ (e.toNat : ℤ) := by rw [Int.toNat_of_nonneg h]
    rw [h1, h2, zpow_natCast]
    simp
  · have h1 : e.toNat = 0 := by omega
    have h2 : (2 : ℚ) ^ e = ((2 : ℚ) ^ ((-e).toNat : ℤ))⁻¹ := by
      rw [Int.toNat_of_nonneg (by omega), zpow_neg, inv_inv]
    rw [h1, h2, zpow_natCast]
    simp

theorem scaled_div (n d : Nat) (e : Int) :
    ((n * pow2 e : Nat) : ℚ) / ((d * pow2 (-e) : Nat) : ℚ) = (n : ℚ) / d * (2 : ℚ) ^ e := by
  rw [← pow2_div e, Nat.cast_mul, Nat.cast_mul, mul_div_mul_comm]

/-! ### The fields of an encoding -/

theorem toNat_withSign {neg : Bool} {mag : Nat} (h : mag < 2 ^ 63) :
    (withSign neg mag).toNat = (if neg then 2 ^ 63 else 0) + mag := by
  rw [withSign, BitVec.toNat_ofNat, Nat.mod_eq_of_lt]
  cases neg <;> simp <;> omega

theorem expField_eq (b : QWord) : expField b = b.toNat / 2 ^ 52 % 2 ^ 11 := by
  simp [expField, Nat.shiftRight_eq_div_pow]

theorem fracField_eq (b : QWord) : fracField b = b.toNat % 2 ^ 52 := by
  simp [fracField]

theorem expField_withSign {neg : Bool} {mag : Nat} (h : mag < 2 ^ 63) :
    expField (withSign neg mag) = mag / 2 ^ 52 := by
  rw [expField_eq, toNat_withSign h]
  cases neg <;> simp <;> omega

theorem fracField_withSign {neg : Bool} {mag : Nat} (h : mag < 2 ^ 63) :
    fracField (withSign neg mag) = mag % 2 ^ 52 := by
  rw [fracField_eq, toNat_withSign h]
  cases neg <;> simp; omega

theorem signBit_withSign {neg : Bool} {mag : Nat} (h : mag < 2 ^ 63) : signBit (withSign neg mag) = neg := by
  rw [signBit, BitVec.msb_eq_decide, toNat_withSign h]
  cases neg <;> simp; omega

theorem isFinite_withSign {neg : Bool} {mag : Nat} (h : mag ≤ infMag) :
    isFinite (withSign neg mag) = decide (mag < infMag) := by
  have h63 : mag < 2 ^ 63 := lt_of_le_of_lt h (by decide)
  rw [isFinite, expField_withSign h63, infMag] at *
  congr 1
  apply propext
  omega

theorem mant_lt (b : QWord) : mant b < 2 ^ 53 := by
  have : fracField b < 2 ^ 52 := by rw [fracField_eq]; exact Nat.mod_lt _ (by decide)
  unfold mant
  split <;> omega

theorem expo_ge (b : QWord) : -1074 ≤ expo b := by
  unfold expo
  split <;> omega

/-! ### The floor of log2 -/

/-- `log2Floor` is the exponent of the leading bit. -/
theorem log2Floor_spec {n d : Nat} (hn : 0 < n) (hd : 0 < d) :
    (2 : ℚ) ^ log2Floor n d ≤ (n : ℚ) / d ∧ (n : ℚ) / d < (2 : ℚ) ^ (log2Floor n d + 1) := by
  have hdq : (0 : ℚ) < d := by exact_mod_cast hd
  have n1 : (2 : ℚ) ^ (Nat.log2 n : ℤ) ≤ n := by
    rw [zpow_natCast]; exact_mod_cast Nat.log2_self_le (by omega)
  have n2 : (n : ℚ) < (2 : ℚ) ^ ((Nat.log2 n : ℤ) + 1) := by
    have := Nat.lt_log2_self (n := n)
    rw [show ((Nat.log2 n : ℤ) + 1) = ((Nat.log2 n + 1 : ℕ) : ℤ) by push_cast; ring, zpow_natCast]
    exact_mod_cast this
  have d1 : (2 : ℚ) ^ (Nat.log2 d : ℤ) ≤ d := by
    rw [zpow_natCast]; exact_mod_cast Nat.log2_self_le (by omega)
  have d2 : (d : ℚ) < (2 : ℚ) ^ ((Nat.log2 d : ℤ) + 1) := by
    have := Nat.lt_log2_self (n := d)
    rw [show ((Nat.log2 d : ℤ) + 1) = ((Nat.log2 d + 1 : ℕ) : ℤ) by push_cast; ring, zpow_natCast]
    exact_mod_cast this
  have two : (2 : ℚ) ≠ 0 := by norm_num
  have lo : (2 : ℚ) ^ ((Nat.log2 n : ℤ) - Nat.log2 d - 1) ≤ (n : ℚ) / d := by
    rw [le_div_iff₀ hdq]
    calc (2 : ℚ) ^ ((Nat.log2 n : ℤ) - Nat.log2 d - 1) * d
        ≤ (2 : ℚ) ^ ((Nat.log2 n : ℤ) - Nat.log2 d - 1) * (2 : ℚ) ^ ((Nat.log2 d : ℤ) + 1) :=
          mul_le_mul_of_nonneg_left d2.le (by positivity)
      _ = (2 : ℚ) ^ (Nat.log2 n : ℤ) := by rw [← zpow_add₀ two]; congr 1; ring
      _ ≤ n := n1
  have hi : (n : ℚ) / d < (2 : ℚ) ^ ((Nat.log2 n : ℤ) - Nat.log2 d + 1) := by
    rw [div_lt_iff₀ hdq]
    calc (n : ℚ) < (2 : ℚ) ^ ((Nat.log2 n : ℤ) + 1) := n2
      _ = (2 : ℚ) ^ ((Nat.log2 n : ℤ) - Nat.log2 d + 1) * (2 : ℚ) ^ (Nat.log2 d : ℤ) := by
          rw [← zpow_add₀ two]; congr 1; ring
      _ ≤ (2 : ℚ) ^ ((Nat.log2 n : ℤ) - Nat.log2 d + 1) * d := mul_le_mul_of_nonneg_left d1 (by positivity)
  have test : (d * pow2 ((Nat.log2 n : ℤ) - Nat.log2 d) ≤ n * pow2 (-((Nat.log2 n : ℤ) - Nat.log2 d))) ↔
      (2 : ℚ) ^ ((Nat.log2 n : ℤ) - Nat.log2 d) ≤ (n : ℚ) / d := by
    rw [← pow2_div, div_le_div_iff₀ (by exact_mod_cast pow2_pos _) hdq, ← Nat.cast_mul, ← Nat.cast_mul, Nat.cast_le,
      Nat.mul_comm]
  unfold log2Floor
  simp only
  split
  · rename_i h
    exact ⟨test.mp h, hi⟩
  · rename_i h
    refine ⟨lo, ?_⟩
    rw [sub_add_cancel]
    exact not_le.mp (fun h2 => h (test.mpr h2))

/-! ### The nearest integer -/

/-- `divRoundEven` is within one half of the quotient. -/
theorem divRoundEven_half {n d : Nat} (hd : 0 < d) : |(divRoundEven n d : ℚ) - (n : ℚ) / d| ≤ 1 / 2 := by
  have hdq : (0 : ℚ) < d := by exact_mod_cast hd
  have hq : (n : ℚ) / d = (n / d : Nat) + ((n % d : Nat) : ℚ) / d := by
    have h : ((d * (n / d) + n % d : Nat) : ℚ) = n := by rw [Nat.div_add_mod]
    rw [← h, Nat.cast_add, Nat.cast_mul, add_div, mul_div_cancel_left₀ _ hdq.ne']
  have hr : n % d < d := Nat.mod_lt _ hd
  rw [hq, abs_le]
  unfold divRoundEven
  simp only
  have e1 : ((n % d : Nat) : ℚ) / d * d = (n % d : Nat) := by field_simp
  have e0 : (0 : ℚ) ≤ ((n % d : Nat) : ℚ) / d := by positivity
  have e2 : ((n % d : Nat) : ℚ) / d < 1 := by rw [div_lt_one hdq]; exact_mod_cast hr
  split
  · rename_i h
    have : ((n % d : Nat) : ℚ) / d < 1 / 2 := by
      rw [div_lt_div_iff₀ hdq (by norm_num)]
      have : ((2 * (n % d) : Nat) : ℚ) < d := by exact_mod_cast h
      push_cast at this
      linarith
    constructor <;> linarith
  · split
    · rename_i h
      have : 1 / 2 < ((n % d : Nat) : ℚ) / d := by
        rw [div_lt_div_iff₀ (by norm_num) hdq]
        have : (d : ℚ) < ((2 * (n % d) : Nat) : ℚ) := by exact_mod_cast h
        push_cast at this
        linarith
      push_cast
      constructor <;> linarith
    · have h2 : 2 * (n % d) = d := by omega
      have : ((n % d : Nat) : ℚ) / d = 1 / 2 := by
        rw [div_eq_div_iff hdq.ne' (by norm_num)]
        have : ((2 * (n % d) : Nat) : ℚ) = d := by exact_mod_cast h2
        push_cast at this
        linarith
      rw [this]
      rcases Nat.mod_two_eq_zero_or_one (n / d) with h | h <;> rw [h] <;> push_cast <;> constructor <;> linarith

/-- No integer is nearer to the quotient than `divRoundEven`. -/
theorem divRoundEven_nearest {n d : Nat} (hd : 0 < d) (z : ℤ) :
    |(divRoundEven n d : ℚ) - (n : ℚ) / d| ≤ |(z : ℚ) - (n : ℚ) / d| := by
  have half := divRoundEven_half (n := n) hd
  by_cases h : z = (divRoundEven n d : ℤ)
  · rw [h]; simp
  · have h1 : (1 : ℚ) ≤ |(z : ℚ) - (divRoundEven n d : ℚ)| := by
      have : (1 : ℤ) ≤ |z - (divRoundEven n d : ℤ)| := Int.one_le_abs (sub_ne_zero.mpr h)
      exact_mod_cast this
    have h2 : |(z : ℚ) - divRoundEven n d| ≤ |(z : ℚ) - (n : ℚ) / d| + |(divRoundEven n d : ℚ) - (n : ℚ) / d| := by
      have := abs_sub_le (z : ℚ) ((n : ℚ) / d) (divRoundEven n d : ℚ)
      rwa [abs_sub_comm ((n : ℚ) / d) _] at this
    linarith

/-- Where another integer is as near to the quotient, `divRoundEven` is even. -/
theorem divRoundEven_even_of_tie {n d : Nat} (hd : 0 < d) {z : ℤ} (hz : z ≠ (divRoundEven n d : ℤ))
    (h : |(z : ℚ) - (n : ℚ) / d| = |(divRoundEven n d : ℚ) - (n : ℚ) / d|) : divRoundEven n d % 2 = 0 := by
  have hdq : (0 : ℚ) < d := by exact_mod_cast hd
  have h1 : (1 : ℚ) ≤ |(z : ℚ) - (divRoundEven n d : ℚ)| := by
    have : (1 : ℤ) ≤ |z - (divRoundEven n d : ℤ)| := Int.one_le_abs (sub_ne_zero.mpr hz)
    exact_mod_cast this
  have h2 := abs_sub_le (z : ℚ) ((n : ℚ) / d) (divRoundEven n d : ℚ)
  rw [abs_sub_comm ((n : ℚ) / d) _, h] at h2
  have half : |(divRoundEven n d : ℚ) - (n : ℚ) / d| = 1 / 2 :=
    le_antisymm (divRoundEven_half hd) (by linarith)
  have hr : n % d < d := Nat.mod_lt _ hd
  have key : ∀ k : ℕ, |((n / d + k : ℕ) : ℚ) - (n : ℚ) / d| = |(k : ℚ) * d - (n % d : ℕ)| / d := by
    intro k
    have hn : ((d * (n / d) + n % d : ℕ) : ℚ) = n := by rw [Nat.div_add_mod]
    rw [← hn, ← abs_of_pos hdq, ← abs_div, abs_of_pos hdq]
    congr 1
    push_cast
    field_simp
    ring
  unfold divRoundEven at half ⊢
  simp only at half ⊢
  split at half
  · rename_i hlt
    have := key 0
    rw [Nat.add_zero, Nat.cast_zero, zero_mul, zero_sub, abs_neg, Nat.abs_cast] at this
    rw [this, div_eq_div_iff hdq.ne' two_ne_zero] at half
    have : (n % d) * 2 = 1 * d := by exact_mod_cast half
    omega
  · rw [if_neg ‹_›]
    split at half
    · rename_i hgt
      rw [key 1, Nat.cast_one, one_mul, abs_of_nonneg (sub_nonneg.mpr (by exact_mod_cast hr.le)),
        div_eq_div_iff hdq.ne' two_ne_zero, one_mul, ← Nat.cast_sub hr.le] at half
      have : (d - n % d) * 2 = d := by exact_mod_cast half
      omega
    · rw [if_neg ‹_›]
      omega

/-! ### The one rounding -/

/-- The exponent of the last place of the rounded value. -/
def lastPlace (n d : Nat) : ℤ := max (log2Floor n d - 52) (-1074)

/-- The rounded significand. -/
def roundedMant (n d : Nat) : Nat :=
  divRoundEven (n * pow2 (-lastPlace n d)) (d * pow2 (lastPlace n d))

theorem roundMag_eq {n : Nat} (d : Nat) (hn : 0 < n) :
    roundMag n d = min ((lastPlace n d + 1074).toNat * 2 ^ 52 + roundedMant n d) infMag := by
  rw [roundMag, if_neg (by omega)]
  rfl

theorem lastPlace_ge (n d : Nat) : -1074 ≤ lastPlace n d := le_max_right _ _

theorem roundMag_le (n d : Nat) : roundMag n d ≤ infMag := by
  unfold roundMag
  split
  · exact Nat.zero_le _
  · exact Nat.min_le_right _ _

/-- The quotient in units of the last place. -/
theorem scaled_quotient (n d : Nat) :
    ((n * pow2 (-lastPlace n d) : Nat) : ℚ) / ((d * pow2 (lastPlace n d) : Nat) : ℚ)
      = (n : ℚ) / d * (2 : ℚ) ^ (-lastPlace n d) := by
  have := scaled_div n d (-lastPlace n d)
  rwa [neg_neg] at this

/-- The quotient lies below 2^53 last places, and not below 2^52 unless the last place is that of the subnormals. -/
theorem scaled_bounds {n d : Nat} (hn : 0 < n) (hd : 0 < d) :
    (n : ℚ) / d * (2 : ℚ) ^ (-lastPlace n d) < 2 ^ 53 ∧
      ((2 : ℚ) ^ 52 ≤ (n : ℚ) / d * (2 : ℚ) ^ (-lastPlace n d) ∨ lastPlace n d = -1074) := by
  obtain ⟨lo, hi⟩ := log2Floor_spec hn hd
  have two : (2 : ℚ) ≠ 0 := by norm_num
  have hp : (0 : ℚ) < (2 : ℚ) ^ (-lastPlace n d) := by positivity
  constructor
  · calc (n : ℚ) / d * (2 : ℚ) ^ (-lastPlace n d)
        < (2 : ℚ) ^ (log2Floor n d + 1) * (2 : ℚ) ^ (-lastPlace n d) := mul_lt_mul_of_pos_right hi hp
      _ = (2 : ℚ) ^ (log2Floor n d + 1 - lastPlace n d) := by rw [← zpow_add₀ two]; rfl
      _ ≤ (2 : ℚ) ^ (53 : ℤ) := by
          apply zpow_le_zpow_right₀ (by norm_num)
          have : log2Floor n d - 52 ≤ lastPlace n d := le_max_left _ _
          omega
      _ = 2 ^ 53 := by norm_cast
  · by_cases h : log2Floor n d - 52 ≤ -1074
    · exact .inr (max_eq_right h)
    · refine .inl ?_
      have hl : lastPlace n d = log2Floor n d - 52 := max_eq_left (by omega)
      calc (2 : ℚ) ^ 52 = (2 : ℚ) ^ (52 : ℤ) := by norm_cast
        _ = (2 : ℚ) ^ (log2Floor n d) * (2 : ℚ) ^ (-lastPlace n d) := by
            rw [← zpow_add₀ two, hl]; congr 1; ring
        _ ≤ (n : ℚ) / d * (2 : ℚ) ^ (-lastPlace n d) := mul_le_mul_of_nonneg_right lo hp.le

theorem roundedMant_half {n d : Nat} (hd : 0 < d) :
    |(roundedMant n d : ℚ) - (n : ℚ) / d * (2 : ℚ) ^ (-lastPlace n d)| ≤ 1 / 2 := by
  rw [← scaled_quotient]
  exact divRoundEven_half (Nat.mul_pos hd (pow2_pos _))

theorem roundedMant_nearest {n d : Nat} (hd : 0 < d) (z : ℤ) :
    |(roundedMant n d : ℚ) - (n : ℚ) / d * (2 : ℚ) ^ (-lastPlace n d)|
      ≤ |(z : ℚ) - (n : ℚ) / d * (2 : ℚ) ^ (-lastPlace n d)| := by
  rw [← scaled_quotient]
  exact divRoundEven_nearest (Nat.mul_pos hd (pow2_pos _)) z

/-- The rounded significand has at most 53 bits or is 2^53, and has 53 bits unless the value is subnormal. -/
theorem roundedMant_bounds {n d : Nat} (hn : 0 < n) (hd : 0 < d) :
    roundedMant n d ≤ 2 ^ 53 ∧ (2 ^ 52 ≤ roundedMant n d ∨ lastPlace n d = -1074) := by
  obtain ⟨hi, lo⟩ := scaled_bounds hn hd
  have half := abs_le.mp (roundedMant_half (n := n) hd)
  constructor
  · have : (roundedMant n d : ℚ) < 2 ^ 53 + 1 := by linarith
    have : roundedMant n d < 2 ^ 53 + 1 := by exact_mod_cast this
    omega
  · refine lo.imp (fun lo => ?_) id
    have : (2 : ℚ) ^ 52 < roundedMant n d + 1 := by linarith
    have : 2 ^ 52 < roundedMant n d + 1 := by exact_mod_cast this
    omega

/-- The value of an encoding whose magnitude is made of a last place and a significand, as `roundMag` makes it. -/
theorem realValue_parts {neg : Bool} {u : ℤ} {m : Nat} (hu : -1074 ≤ u) (hm : m ≤ 2 ^ 53)
    (hn : 2 ^ 52 ≤ m ∨ u = -1074) (hlt : (u + 1074).toNat * 2 ^ 52 + m < infMag) :
    realValue (withSign neg ((u + 1074).toNat * 2 ^ 52 + m)) = (if neg then -1 else 1) * ((m : ℚ) * (2 : ℚ) ^ u) := by
  obtain ⟨w, rfl⟩ : ∃ w : ℕ, u = (w : ℤ) - 1074 := ⟨(u + 1074).toNat, by omega⟩
  have hw : ((w : ℤ) - 1074 + 1074).toNat = w := by omega
  rw [hw] at hlt ⊢
  have h63 : w * 2 ^ 52 + m < 2 ^ 63 := lt_trans hlt (by decide)
  rw [realValue, signBit_withSign h63, mul_assoc]
  congr 1
  unfold mant expo
  rw [expField_withSign h63, fracField_withSign h63]
  rcases Nat.lt_or_ge m (2 ^ 52) with h1 | h1
  · have hw0 : w = 0 := by omega
    have e1 : (w * 2 ^ 52 + m) / 2 ^ 52 = 0 := by omega
    have e2 : (w * 2 ^ 52 + m) % 2 ^ 52 = m := by omega
    rw [if_pos e1, if_pos e1, e2, hw0, Nat.cast_zero, zero_sub]
  · rcases Nat.lt_or_ge m (2 ^ 53) with h2 | h2
    · obtain ⟨f, rfl⟩ : ∃ f, m = 2 ^ 52 + f := ⟨m - 2 ^ 52, by omega⟩
      have e1 : (w * 2 ^ 52 + (2 ^ 52 + f)) / 2 ^ 52 = w + 1 := by omega
      have e2 : (w * 2 ^ 52 + (2 ^ 52 + f)) % 2 ^ 52 = f := by omega
      rw [e1, e2, if_neg (by omega), if_neg (by omega)]
      congr 2
      push_cast
      ring
    · have hm' : m = 2 ^ 53 := le_antisymm hm h2
      subst hm'
      have e1 : (w * 2 ^ 52 + 2 ^ 53) / 2 ^ 52 = w + 2 := by omega
      have e2 : (w * 2 ^ 52 + 2 ^ 53) % 2 ^ 52 = 0 := by omega
      rw [e1, e2, if_neg (by omega), if_neg (by omega)]
      have two : (2 : ℚ) ≠ 0 := by norm_num
      have e4 : ((w + 2 : ℕ) : ℤ) - 1075 = ((w : ℤ) - 1074) + 1 := by push_cast; ring
      rw [e4, zpow_add₀ two]
      push_cast
      ring

/-- Where the result is finite, its value is the rounded significand times its last place. -/
theorem realValue_roundMag {neg : Bool} {n d : Nat} (hn : 0 < n) (hd : 0 < d) (hf : roundMag n d < infMag) :
    realValue (withSign neg (roundMag n d))
      = (if neg then -1 else 1) * ((roundedMant n d : ℚ) * (2 : ℚ) ^ lastPlace n d) := by
  rw [roundMag_eq d hn] at hf ⊢
  have hlt : (lastPlace n d + 1074).toNat * 2 ^ 52 + roundedMant n d < infMag := by
    rcases Nat.le_total ((lastPlace n d + 1074).toNat * 2 ^ 52 + roundedMant n d) infMag with h | h
    · rwa [Nat.min_eq_left h] at hf
    · rw [Nat.min_eq_right h] at hf; exact absurd hf (lt_irrefl _)
  rw [Nat.min_eq_left hlt.le]
  obtain ⟨h1, h2⟩ := roundedMant_bounds hn hd
  exact realValue_parts (lastPlace_ge n d) h1 h2 hlt

/-- No value of at most 53 significant bits and exponent at least -1074 is nearer to the quotient than the rounded one. -/
theorem rounded_nearest {n d : Nat} (hn : 0 < n) (hd : 0 < d) {m : Nat} {e : ℤ} (hm : m < 2 ^ 53) (he : -1074 ≤ e) :
    |(roundedMant n d : ℚ) * (2 : ℚ) ^ lastPlace n d - (n : ℚ) / d| ≤ |(m : ℚ) * (2 : ℚ) ^ e - (n : ℚ) / d| := by
  have two : (2 : ℚ) ≠ 0 := by norm_num
  set u := lastPlace n d with hu
  have hp : (0 : ℚ) < (2 : ℚ) ^ u := by positivity
  have hx : (n : ℚ) / d = (n : ℚ) / d * (2 : ℚ) ^ (-u) * (2 : ℚ) ^ u := by
    rw [mul_assoc, ← zpow_add₀ two, neg_add_cancel, zpow_zero, mul_one]
  have scale : ∀ y : ℚ, |y * (2 : ℚ) ^ u - (n : ℚ) / d| = |y - (n : ℚ) / d * (2 : ℚ) ^ (-u)| * (2 : ℚ) ^ u := by
    intro y
    conv_lhs => rw [hx]
    rw [← sub_mul, abs_mul, abs_of_pos hp]
  rcases le_or_gt u e with h | h
  · have hz : (m : ℚ) * (2 : ℚ) ^ e = (((m * 2 ^ (e - u).toNat : ℕ) : ℤ) : ℚ) * (2 : ℚ) ^ u := by
      push_cast
      rw [mul_assoc, ← zpow_natCast, ← zpow_add₀ two, Int.toNat_of_nonneg (by omega)]
      congr 2
      ring
    rw [hz, scale, scale]
    exact mul_le_mul_of_nonneg_right (roundedMant_nearest hd _) hp.le
  · obtain ⟨_, lo⟩ := scaled_bounds hn hd
    rcases lo with lo | lo
    · have hq : (m : ℚ) * (2 : ℚ) ^ e ≤ ((2 ^ 52 : ℤ) : ℚ) * (2 : ℚ) ^ u := by
        have h1 : (m : ℚ) ≤ (2 : ℚ) ^ (53 : ℤ) := by
          have : (m : ℚ) < 2 ^ 53 := by exact_mod_cast hm
          have h2 : ((2 : ℚ) ^ (53 : ℤ)) = 2 ^ 53 := by norm_cast
          rw [h2]; exact this.le
        calc (m : ℚ) * (2 : ℚ) ^ e ≤ (2 : ℚ) ^ (53 : ℤ) * (2 : ℚ) ^ e := mul_le_mul_of_nonneg_right h1 (by positivity)
          _ = (2 : ℚ) ^ (53 + e) := by rw [zpow_add₀ two]
          _ ≤ (2 : ℚ) ^ (52 + u) := zpow_le_zpow_right₀ (by norm_num) (by omega)
          _ = ((2 ^ 52 : ℤ) : ℚ) * (2 : ℚ) ^ u := by rw [zpow_add₀ two]; norm_cast
      have hle : ((2 ^ 52 : ℤ) : ℚ) * (2 : ℚ) ^ u ≤ (n : ℚ) / d := by
        rw [hx]
        refine mul_le_mul_of_nonneg_right ?_ hp.le
        push_cast
        exact lo
      have near := roundedMant_nearest (n := n) hd (2 ^ 52 : ℤ)
      rw [← hu] at near
      have step : |(roundedMant n d : ℚ) * (2 : ℚ) ^ u - (n : ℚ) / d| ≤
          |((2 ^ 52 : ℤ) : ℚ) * (2 : ℚ) ^ u - (n : ℚ) / d| := by
        rw [scale, scale]
        exact mul_le_mul_of_nonneg_right near hp.le
      refine le_trans step ?_
      rw [abs_of_nonpos (sub_nonpos.mpr hle), abs_of_nonpos (sub_nonpos.mpr (hq.trans hle))]
      exact neg_le_neg (sub_le_sub_right hq _)
    · omega

/-- The significand of an encoding made of a last place and a significand has the parity of that significand. -/
theorem mant_parts {neg : Bool} {w m : Nat} (hlt : w * 2 ^ 52 + m < infMag) :
    mant (withSign neg (w * 2 ^ 52 + m)) % 2 = m % 2 := by
  have h63 : w * 2 ^ 52 + m < 2 ^ 63 := lt_trans hlt (by decide)
  unfold mant
  rw [expField_withSign h63, fracField_withSign h63]
  split <;> omega

/-- The significand of a finite rounded value has the parity of the rounded significand. -/
theorem mant_roundMag {neg : Bool} {n d : Nat} (hn : 0 < n) (hf : roundMag n d < infMag) :
    mant (withSign neg (roundMag n d)) % 2 = roundedMant n d % 2 := by
  rw [roundMag_eq d hn] at hf ⊢
  have hlt : (lastPlace n d + 1074).toNat * 2 ^ 52 + roundedMant n d < infMag := by
    rcases min_lt_iff.mp hf with h | h
    · exact h
    · exact absurd h (lt_irrefl _)
  rw [Nat.min_eq_left hlt.le]
  exact mant_parts hlt

/-- Where a different value of at most 53 significant bits and exponent at least -1074 is as near to the quotient as the
rounded one, the rounded significand is even. -/
theorem rounded_even_of_tie {n d : Nat} (hn : 0 < n) (hd : 0 < d) {m : Nat} {e : ℤ} (hm : m < 2 ^ 53) (he : -1074 ≤ e)
    (hne : (m : ℚ) * (2 : ℚ) ^ e ≠ (roundedMant n d : ℚ) * (2 : ℚ) ^ lastPlace n d)
    (h : |(m : ℚ) * (2 : ℚ) ^ e - (n : ℚ) / d| = |(roundedMant n d : ℚ) * (2 : ℚ) ^ lastPlace n d - (n : ℚ) / d|) :
    roundedMant n d % 2 = 0 := by
  have two : (2 : ℚ) ≠ 0 := by norm_num
  set u := lastPlace n d with hu
  have hp : (0 : ℚ) < (2 : ℚ) ^ u := by positivity
  have hx : (n : ℚ) / d = (n : ℚ) / d * (2 : ℚ) ^ (-u) * (2 : ℚ) ^ u := by
    rw [mul_assoc, ← zpow_add₀ two, neg_add_cancel, zpow_zero, mul_one]
  have scale : ∀ y : ℚ, |y * (2 : ℚ) ^ u - (n : ℚ) / d| = |y - (n : ℚ) / d * (2 : ℚ) ^ (-u)| * (2 : ℚ) ^ u := by
    intro y
    conv_lhs => rw [hx]
    rw [← sub_mul, abs_mul, abs_of_pos hp]
  -- a tie with a multiple of the last place
  have grid : ∀ z : ℤ, (z : ℚ) * (2 : ℚ) ^ u ≠ (roundedMant n d : ℚ) * (2 : ℚ) ^ u →
      |(z : ℚ) * (2 : ℚ) ^ u - (n : ℚ) / d| = |(roundedMant n d : ℚ) * (2 : ℚ) ^ u - (n : ℚ) / d| →
      roundedMant n d % 2 = 0 := by
    intro z hz ht
    rw [scale, scale] at ht
    have ht := mul_right_cancel₀ hp.ne' ht
    rw [hu, ← scaled_quotient] at ht
    refine divRoundEven_even_of_tie (Nat.mul_pos hd (pow2_pos _)) (z := z) (fun hzq => hz ?_) ht
    rw [hzq]
    rfl
  rcases le_or_gt u e with hue | hue
  · have hz : (m : ℚ) * (2 : ℚ) ^ e = (((m * 2 ^ (e - u).toNat : ℕ) : ℤ) : ℚ) * (2 : ℚ) ^ u := by
      push_cast
      rw [mul_assoc, ← zpow_natCast, ← zpow_add₀ two, Int.toNat_of_nonneg (by omega)]
      congr 2
      ring
    rw [hz] at h hne
    exact grid _ hne h
  · obtain ⟨_, lo⟩ := scaled_bounds hn hd
    rcases lo with lo | lo
    · have hq : (m : ℚ) * (2 : ℚ) ^ e < ((2 ^ 52 : ℤ) : ℚ) * (2 : ℚ) ^ u := by
        have h1 : (m : ℚ) < (2 : ℚ) ^ (53 : ℤ) := by
          have : (m : ℚ) < 2 ^ 53 := by exact_mod_cast hm
          have h2 : ((2 : ℚ) ^ (53 : ℤ)) = 2 ^ 53 := by norm_cast
          rw [h2]; exact this
        calc (m : ℚ) * (2 : ℚ) ^ e < (2 : ℚ) ^ (53 : ℤ) * (2 : ℚ) ^ e := mul_lt_mul_of_pos_right h1 (by positivity)
          _ = (2 : ℚ) ^ (53 + e) := by rw [zpow_add₀ two]
          _ ≤ (2 : ℚ) ^ (52 + u) := zpow_le_zpow_right₀ (by norm_num) (by omega)
          _ = ((2 ^ 52 : ℤ) : ℚ) * (2 : ℚ) ^ u := by rw [zpow_add₀ two]; norm_cast
      have hle : ((2 ^ 52 : ℤ) : ℚ) * (2 : ℚ) ^ u ≤ (n : ℚ) / d := by
        rw [hx]
        refine mul_le_mul_of_nonneg_right ?_ hp.le
        push_cast
        exact lo
      have near := roundedMant_nearest (n := n) hd (2 ^ 52 : ℤ)
      rw [← hu] at near
      have step : |(roundedMant n d : ℚ) * (2 : ℚ) ^ u - (n : ℚ) / d| ≤
          |((2 ^ 52 : ℤ) : ℚ) * (2 : ℚ) ^ u - (n : ℚ) / d| := by
        rw [scale, scale]
        exact mul_le_mul_of_nonneg_right near hp.le
      rw [← h, abs_of_nonpos (sub_nonpos.mpr (hq.le.trans hle)), abs_of_nonpos (sub_nonpos.mpr hle)] at step
      exact absurd (sub_le_sub_iff_right _ |>.mp (neg_le_neg_iff.mp step)) (not_le.mpr hq)
    · omega

/-- Halfway between an odd integer and the next, `divRoundEven` takes the next. -/
theorem divRoundEven_tie {a b q : Nat} (hb : 0 < b) (hq : q % 2 = 1) (h : 2 * a = (2 * q + 1) * b) :
    divRoundEven a b = q + 1 := by
  have e1 : 2 * a = 2 * (q * b) + b := by rw [h]; ring
  have e2 : a / b = q := Nat.div_eq_of_lt_le (by omega) (by rw [Nat.add_mul]; omega)
  have e3 := Nat.div_add_mod a b
  rw [e2, Nat.mul_comm b q] at e3
  unfold divRoundEven
  simp only
  rw [if_neg (by omega), if_neg (by omega), e2, hq]

/-- A power of two split into a natural and an integer exponent. -/
theorem scale_add (a : ℕ) (b : ℤ) : (2 : ℚ) ^ (a + b : ℤ) = 2 ^ a * 2 ^ b := by
  rw [zpow_add₀ two_ne_zero, zpow_natCast]

/-- The powers of two about the largest finite value, in units of 2^970. -/
theorem scale_970 : ∃ P : ℚ, (2 : ℚ) ^ (970 : ℤ) = P ∧ 0 < P ∧ (2 : ℚ) ^ (971 : ℤ) = 2 * P ∧
      (2 : ℚ) ^ (1023 : ℤ) = 2 ^ 53 * P ∧ (2 : ℚ) ^ (1024 : ℤ) = 2 ^ 54 * P := by
  have h (a : ℕ) (b c : ℤ) (e : c = a + b) : (2 : ℚ) ^ c = 2 ^ a * 2 ^ b := by rw [e, scale_add]
  refine ⟨_, rfl, zpow_pos two_pos _, ?_, h 53 970 1023 (by norm_num), h 54 970 1024 (by norm_num)⟩
  rw [h 1 970 971 (by norm_num), pow_one]

/-- The result is an infinity exactly from the midpoint between the largest finite value and 2^1024 on. -/
theorem roundMag_overflow {n d : Nat} (hn : 0 < n) (hd : 0 < d) :
    roundMag n d = infMag ↔ ((2 : ℚ) ^ 54 - 1) * (2 : ℚ) ^ (970 : ℤ) ≤ (n : ℚ) / d := by
  have two : (2 : ℚ) ≠ 0 := by norm_num
  obtain ⟨hM, hM2⟩ := roundedMant_bounds hn hd
  obtain ⟨hi, lo⟩ := scaled_bounds hn hd
  have half := abs_le.mp (roundedMant_half (n := n) hd)
  have hge := lastPlace_ge n d
  rw [roundMag_eq d hn]
  set u := lastPlace n d with hu
  set x := (n : ℚ) / d with hxd
  have hp : (0 : ℚ) < (2 : ℚ) ^ u := by positivity
  have hx : x = x * (2 : ℚ) ^ (-u) * (2 : ℚ) ^ u := by
    rw [mul_assoc, ← zpow_add₀ two, neg_add_cancel, zpow_zero, mul_one]
  have hmin : min ((u + 1074).toNat * 2 ^ 52 + roundedMant n d) infMag = infMag ↔
      infMag ≤ (u + 1074).toNat * 2 ^ 52 + roundedMant n d := by
    constructor
    · intro h; rw [← h]; exact Nat.min_le_left _ _
    · exact Nat.min_eq_right
  rw [hmin]
  have hinf : infMag = 2047 * 2 ^ 52 := by decide
  have i1 : u < 971 → 53 + u ≤ 1023 := by omega
  have i2 : 971 < u → 1024 ≤ 52 + u := by omega
  obtain ⟨P, hP, hP0, h971, h1023, h1024⟩ := scale_970
  rw [hP]
  rcases lt_trichotomy u 971 with h | h | h
  · constructor
    · intro h2
      rw [hinf] at h2
      have h3 : (u + 1074).toNat ≤ 2044 := by omega
      omega
    · intro h2
      exfalso
      have : x < (2 : ℚ) ^ (1023 : ℤ) := by
        calc x = x * (2 : ℚ) ^ (-u) * (2 : ℚ) ^ u := hx
          _ < 2 ^ 53 * (2 : ℚ) ^ u := mul_lt_mul_of_pos_right hi hp
          _ = (2 : ℚ) ^ (53 + u) := (scale_add 53 u).symm
          _ ≤ (2 : ℚ) ^ (1023 : ℤ) := zpow_le_zpow_right₀ one_le_two (i1 h)
      have h5 : (2 : ℚ) ^ 53 * P ≤ ((2 : ℚ) ^ 54 - 1) * P := mul_le_mul_of_nonneg_right (by norm_num) hP0.le
      rw [h1023] at this
      exact absurd (h5.trans h2) (not_le.mpr this)
  · have h3 : (u + 1074).toNat = 2045 := by omega
    rw [h3, hinf]
    have e1 : (2047 * 2 ^ 52 ≤ 2045 * 2 ^ 52 + roundedMant n d) ↔ roundedMant n d = 2 ^ 53 := by omega
    have hpow : (2 : ℚ) ^ u = 2 * P := by rw [h, h971]
    have e2 : ((2 : ℚ) ^ 54 - 1) * P ≤ x ↔ (2 : ℚ) ^ 53 - 1 / 2 ≤ x * (2 : ℚ) ^ (-u) := by
      conv_lhs => rw [hx, hpow]
      constructor
      · intro h6
        have : ((2 : ℚ) ^ 54 - 1) * P ≤ (2 * (x * (2 : ℚ) ^ (-u))) * P := by
          calc ((2 : ℚ) ^ 54 - 1) * P ≤ _ := h6
            _ = _ := by ring
        have := le_of_mul_le_mul_right this hP0
        linarith
      · intro h6
        have : ((2 : ℚ) ^ 54 - 1) * P ≤ (2 * (x * (2 : ℚ) ^ (-u))) * P :=
          mul_le_mul_of_nonneg_right (by linarith) hP0.le
        calc ((2 : ℚ) ^ 54 - 1) * P ≤ _ := this
          _ = _ := by ring
    rw [e1, e2]
    constructor
    · intro h6
      have : (roundedMant n d : ℚ) = 2 ^ 53 := by rw [h6]; norm_cast
      linarith
    · intro h6
      rcases lt_or_eq_of_le h6 with h7 | h7
      · have : (2 : ℚ) ^ 53 < roundedMant n d + 1 := by linarith
        have : 2 ^ 53 < roundedMant n d + 1 := by exact_mod_cast this
        omega
      · have hA := scaled_quotient n d
        rw [← hu, ← hxd, ← h7] at hA
        set A := n * pow2 (-u) with hAd
        set B := d * pow2 u with hBd
        have hB : 0 < B := Nat.mul_pos hd (pow2_pos _)
        have hBq : (0 : ℚ) < B := by exact_mod_cast hB
        rw [div_eq_iff hBq.ne'] at hA
        have hAB : 2 * A = (2 ^ 54 - 1) * B := by
          have : ((2 * A : ℕ) : ℚ) = (((2 ^ 54 - 1) * B : ℕ) : ℚ) := by push_cast; rw [hA]; ring
          exact_mod_cast this
        exact divRoundEven_tie hB (q := 2 ^ 53 - 1) (by norm_num) (by rw [hAB]; norm_num)
  · constructor
    · intro _
      have hlo : (2 : ℚ) ^ 52 ≤ x * (2 : ℚ) ^ (-u) := by
        rcases lo with lo | lo
        · exact lo
        · omega
      have : (2 : ℚ) ^ (1024 : ℤ) ≤ x := by
        calc (2 : ℚ) ^ (1024 : ℤ) ≤ (2 : ℚ) ^ (52 + u) := zpow_le_zpow_right₀ one_le_two (i2 h)
          _ = 2 ^ 52 * (2 : ℚ) ^ u := scale_add 52 u
          _ ≤ x * (2 : ℚ) ^ (-u) * (2 : ℚ) ^ u := mul_le_mul_of_nonneg_right hlo hp.le
          _ = x := hx.symm
      rw [h1024] at this
      exact le_trans (mul_le_mul_of_nonneg_right (by norm_num) hP0.le) this
    · intro _
      have h3 : 2046 ≤ (u + 1074).toNat := by omega
      rw [hinf]
      rcases hM2 with h4 | h4
      · omega
      · omega

end Sys2Proof.Machine
end

