-- ==== Sys2Proof/Laws/Memory.lean ====
section
/-! SUPPORT. The laws of BUF: a byte read after a write, the canonical form, byte sequences, and arrays of elements. -/

namespace Sys2Proof.Machine

/-! ### One byte -/

@[simp] theorem Memory.read_nil (a : Nat) : Memory.read [] a = none := rfl

theorem Memory.read_write (m : Memory) (a : Nat) (v : Byte) (x : Nat) :
    (m.write a v).read x = if x = a then some v else m.read x := by
  induction m with
  | nil => rfl
  | cons c m ih =>
    obtain ⟨k, b⟩ := c
    by_cases h1 : a < k
    · simp [Memory.write, h1, Memory.read]
    · by_cases h2 : a = k
      · subst h2
        by_cases hx : x = a <;> simp [Memory.write, Memory.read, hx]
      · by_cases hx : x = k
        · subst hx
          simp [Memory.write, h1, h2, Memory.read, Ne.symm h2]
        · simp [Memory.write, h1, h2, Memory.read, hx, ih]

theorem Memory.mem_write {m : Memory} {a : Nat} {v : Byte} {c : Host.Cell} (h : c ∈ m.write a v) :
    c = (a, v) ∨ c ∈ m := by
  induction m with
  | nil => simpa [Memory.write] using h
  | cons d m ih =>
    obtain ⟨k, b⟩ := d
    by_cases h1 : a < k
    · simpa [Memory.write, h1] using h
    · by_cases h2 : a = k
      · simp only [Memory.write, h2, if_true, if_false, lt_irrefl, List.mem_cons] at h
        rcases h with h | h
        · exact .inl (by rw [h, h2])
        · exact .inr (by simp [h])
      · simp only [Memory.write, h1, h2, if_false, List.mem_cons] at h
        rcases h with h | h
        · exact .inr (by simp [h])
        · rcases ih h with h | h
          · exact .inl h
          · exact .inr (by simp [h])

/-- A write keeps the canonical form. -/
theorem Memory.write_wf {m : Memory} (h : m.wf) (a : Nat) (v : Byte) : (m.write a v).wf := by
  induction m with
  | nil => simp [Memory.wf, Memory.write]
  | cons d m ih =>
    obtain ⟨k, b⟩ := d
    rw [Memory.wf, List.pairwise_cons] at h
    obtain ⟨hk, hm⟩ := h
    by_cases h1 : a < k
    · rw [Memory.write, if_pos h1, Memory.wf, List.pairwise_cons]
      refine ⟨?_, List.pairwise_cons.mpr ⟨hk, hm⟩⟩
      intro c hc
      rcases List.mem_cons.mp hc with rfl | hc
      · exact h1
      · exact lt_trans h1 (hk c hc)
    · by_cases h2 : a = k
      · rw [Memory.write, if_neg h1, if_pos h2, Memory.wf, List.pairwise_cons]
        exact ⟨fun c hc => by simpa [h2] using hk c hc, hm⟩
      · rw [Memory.write, if_neg h1, if_neg h2, Memory.wf, List.pairwise_cons]
        refine ⟨?_, ih hm⟩
        intro c hc
        rcases Memory.mem_write hc with rfl | hc
        · show k < a
          omega
        · exact hk c hc

/-! ### Byte sequences in BUF -/

theorem Memory.writeBytes_wf {m : Memory} (h : m.wf) (a : Nat) (bs : List Byte) : (m.writeBytes a bs).wf := by
  induction bs generalizing m a with
  | nil => exact h
  | cons b bs ih => exact ih (Memory.write_wf h a b) (a + 1)

theorem Memory.memWrite_wf {m : Memory} (h : m.wf) (a n v : Nat) : (m.memWrite a n v).wf :=
  Memory.writeBytes_wf h a _

theorem Memory.mem_writeBytes {m : Memory} {a : Nat} {bs : List Byte} {c : Host.Cell} (h : c ∈ m.writeBytes a bs) :
    c ∈ m ∨ (a ≤ c.1 ∧ c.1 < a + bs.length) := by
  induction bs generalizing m a with
  | nil => exact .inl h
  | cons b bs ih =>
    rcases ih h with h | h
    · rcases Memory.mem_write h with rfl | h
      · exact .inr ⟨le_refl _, by simp⟩
      · exact .inl h
    · exact .inr ⟨by omega, by simp only [List.length_cons]; omega⟩

theorem Memory.read_writeBytes_of_lt (m : Memory) (a : Nat) (bs : List Byte) {x : Nat} (h : x < a) :
    (m.writeBytes a bs).read x = m.read x := by
  induction bs generalizing m a with
  | nil => rfl
  | cons b bs ih =>
    rw [Memory.writeBytes, ih _ _ (by omega), Memory.read_write, if_neg (by omega)]

theorem Memory.read_writeBytes_of_ge (m : Memory) (a : Nat) (bs : List Byte) {x : Nat} (h : a + bs.length ≤ x) :
    (m.writeBytes a bs).read x = m.read x := by
  induction bs generalizing m a with
  | nil => rfl
  | cons b bs ih =>
    simp only [List.length_cons] at h
    rw [Memory.writeBytes, ih _ _ (by omega), Memory.read_write, if_neg (by omega)]

theorem Memory.read_writeBytes_at (m : Memory) (a : Nat) (bs : List Byte) {k : Nat} (h : k < bs.length) :
    (m.writeBytes a bs).read (a + k) = some bs[k] := by
  induction bs generalizing m a k with
  | nil => simp at h
  | cons b bs ih =>
    cases k with
    | zero =>
      rw [Memory.writeBytes, Memory.read_writeBytes_of_lt _ _ _ (by omega), Memory.read_write, if_pos (by omega)]
      rfl
    | succ k =>
      have := ih (m.write a b) (a + 1) (k := k) (by simpa using h)
      simpa [Memory.writeBytes, Nat.add_assoc, Nat.add_comm 1 k] using this

theorem Memory.readBytes_length {m : Memory} {a n : Nat} {bs : List Byte} (h : m.readBytes a n = some bs) :
    bs.length = n := by
  induction n generalizing a bs with
  | zero => simp [Memory.readBytes] at h; simp [← h]
  | succ n ih =>
    rw [Memory.readBytes] at h
    split at h
    · rename_i b bs' _ h2
      simp only [Option.some.injEq] at h
      rw [← h, List.length_cons, ih h2]
    · cases h

theorem Memory.readBytes_eq_some {m : Memory} {a n : Nat} {bs : List Byte} :
    m.readBytes a n = some bs ↔ bs.length = n ∧ ∀ k (_ : k < bs.length), m.read (a + k) = some bs[k] := by
  induction n generalizing a bs with
  | zero =>
    cases bs with
    | nil => simp [Memory.readBytes]
    | cons b bs => simp [Memory.readBytes]
  | succ n ih =>
    cases bs with
    | nil =>
      simp only [Memory.readBytes]
      split <;> simp
    | cons b bs =>
      have step : m.readBytes a (n + 1) = some (b :: bs) ↔ m.read a = some b ∧ m.readBytes (a + 1) n = some bs := by
        simp only [Memory.readBytes]
        split
        · rename_i h1 h2
          simp [h1, h2]
        · rename_i hno
          constructor
          · intro h; cases h
          · rintro ⟨h1, h2⟩
            exact absurd h2 (hno _ _ h1)
      rw [step, ih]
      constructor
      · rintro ⟨h0, hl, hs⟩
        refine ⟨by simp [hl], fun k hk => ?_⟩
        cases k with
        | zero => simpa using h0
        | succ k =>
          have := hs k (by simpa using hk)
          simpa [Nat.add_assoc, Nat.add_comm 1 k] using this
      · rintro ⟨hl, hs⟩
        refine ⟨hs 0 (by simp), by simpa using hl, fun k hk => ?_⟩
        have := hs (k + 1) (by simpa using hk)
        simpa [Nat.add_assoc, Nat.add_comm 1 k] using this

theorem Memory.readBytes_isSome {m : Memory} {a n : Nat} :
    (m.readBytes a n).isSome ↔ ∀ k < n, (m.read (a + k)).isSome := by
  induction n generalizing a with
  | zero => simp [Memory.readBytes]
  | succ n ih =>
    constructor
    · intro h
      obtain ⟨bs, hb⟩ := Option.isSome_iff_exists.mp h
      obtain ⟨hl, hs⟩ := Memory.readBytes_eq_some.mp hb
      intro k hk
      rw [hs k (by omega)]
      rfl
    · intro h
      have h0 := h 0 (by omega)
      have h1 : (m.readBytes (a + 1) n).isSome := ih.mpr fun k hk => by
        have := h (k + 1) (by omega)
        rwa [show a + 1 + k = a + (k + 1) by omega]
      obtain ⟨b, hb⟩ := Option.isSome_iff_exists.mp h0
      obtain ⟨bs, hbs⟩ := Option.isSome_iff_exists.mp h1
      simp only [Nat.add_zero] at hb
      simp [Memory.readBytes, hb, hbs]

theorem Memory.readBytes_congr {m m' : Memory} {a n : Nat} (h : ∀ k < n, m.read (a + k) = m'.read (a + k)) :
    m.readBytes a n = m'.readBytes a n := by
  induction n generalizing a with
  | zero => rfl
  | succ n ih =>
    have h0 := h 0 (by omega)
    have h1 : m.readBytes (a + 1) n = m'.readBytes (a + 1) n := ih fun k hk => by
      have := h (k + 1) (by omega)
      rwa [show a + 1 + k = a + (k + 1) by omega]
    simp only [Nat.add_zero] at h0
    simp only [Memory.readBytes, h0, h1]

/-- Bytes written are read back, whole or in part. -/
theorem Memory.readBytes_writeBytes_slice (m : Memory) (a : Nat) (bs : List Byte) {i n : Nat} (h : i + n ≤ bs.length) :
    (m.writeBytes a bs).readBytes (a + i) n = some ((bs.drop i).take n) := by
  rw [Memory.readBytes_eq_some]
  refine ⟨by simp; omega, fun k hk => ?_⟩
  have hk' : k < n := by simp at hk; omega
  rw [Nat.add_assoc, Memory.read_writeBytes_at m a bs (k := i + k) (by omega)]
  simp

theorem Memory.readBytes_writeBytes_self (m : Memory) (a : Nat) (bs : List Byte) :
    (m.writeBytes a bs).readBytes a bs.length = some bs := by
  simpa using Memory.readBytes_writeBytes_slice m a bs (i := 0) (n := bs.length) (by omega)

/-- A write does not change what is read from a range it does not meet. -/
theorem Memory.readBytes_writeBytes_disjoint (m : Memory) (a : Nat) (bs : List Byte) {x n : Nat}
    (h : ¬ overlaps a bs.length x n) : (m.writeBytes a bs).readBytes x n = m.readBytes x n := by
  refine Memory.readBytes_congr fun k hk => ?_
  rcases Nat.lt_or_ge (x + k) a with h1 | h1
  · exact Memory.read_writeBytes_of_lt m a bs h1
  · refine Memory.read_writeBytes_of_ge m a bs ?_
    by_contra h2
    exact h ⟨by omega, by omega, by omega, by omega⟩

theorem Memory.memRead_writeBytes_disjoint (m : Memory) (a : Nat) (bs : List Byte) {x n : Nat}
    (h : ¬ overlaps a bs.length x n) : (m.writeBytes a bs).memRead x n = m.memRead x n := by
  rw [Memory.memRead, Memory.readBytes_writeBytes_disjoint m a bs h, Memory.memRead]

/-! ### Little-endian integers (R9) -/

@[simp] theorem leBytes_length (n v : Nat) : (leBytes n v).length = n := by
  induction n generalizing v with
  | zero => rfl
  | succ n ih => simp [leBytes, ih]

theorem fromLe_leBytes (n v : Nat) : fromLe (leBytes n v) = v % 256 ^ n := by
  induction n generalizing v with
  | zero => simp [leBytes, fromLe, Nat.mod_one]
  | succ n ih =>
    rw [leBytes, fromLe, ih, BitVec.toNat_ofNat, show 256 ^ (n + 1) = 256 * 256 ^ n from pow_succ' 256 n, Nat.mod_mul]

theorem fromLe_lt (bs : List Byte) : fromLe bs < 256 ^ bs.length := by
  induction bs with
  | nil => simp [fromLe]
  | cons b bs ih =>
    have := b.isLt
    rw [fromLe, List.length_cons, Nat.pow_succ]
    omega

theorem leBytes_fromLe (bs : List Byte) : leBytes bs.length (fromLe bs) = bs := by
  induction bs with
  | nil => rfl
  | cons b bs ih =>
    have hb := b.isLt
    have h1 : (b.toNat + 256 * fromLe bs) / 256 = fromLe bs := by omega
    have h2 : BitVec.ofNat 8 (b.toNat + 256 * fromLe bs) = b := by
      apply BitVec.eq_of_toNat_eq
      rw [BitVec.toNat_ofNat]
      omega
    rw [List.length_cons, fromLe, leBytes, h1, h2, ih]

theorem leBytes_mod (n v : Nat) : leBytes n (v % 256 ^ n) = leBytes n v := by
  have := leBytes_fromLe (leBytes n v)
  rwa [fromLe_leBytes, leBytes_length] at this

theorem Memory.memRead_lt {m : Memory} {a n v : Nat} (h : m.memRead a n = some v) : v < 256 ^ n := by
  rw [Memory.memRead, Option.map_eq_some_iff] at h
  obtain ⟨bs, hb, rfl⟩ := h
  have := fromLe_lt bs
  rwa [Memory.readBytes_length hb] at this

theorem Memory.memRead_isSome {m : Memory} {a n : Nat} :
    (m.memRead a n).isSome ↔ ∀ k < n, (m.read (a + k)).isSome := by
  rw [Memory.memRead, Option.isSome_map, Memory.readBytes_isSome]

/-- What is written is read back, modulo the width (R10). -/
theorem Memory.memRead_memWrite (m : Memory) (a n v : Nat) : (m.memWrite a n v).memRead a n = some (v % 256 ^ n) := by
  have := Memory.readBytes_writeBytes_self m a (leBytes n v)
  rw [leBytes_length] at this
  rw [Memory.memRead, Memory.memWrite, this, Option.map_some, fromLe_leBytes]

/-! ### Arrays of elements -/

@[simp] theorem arrayBytes_nil (w : Nat) : arrayBytes w [] = [] := rfl

theorem arrayBytes_cons (w v : Nat) (vs : List Nat) : arrayBytes w (v :: vs) = leBytes w v ++ arrayBytes w vs := rfl

@[simp] theorem arrayBytes_length (w : Nat) (vs : List Nat) : (arrayBytes w vs).length = w * vs.length := by
  induction vs with
  | nil => simp
  | cons v vs ih => simp [arrayBytes_cons, ih, Nat.mul_succ, Nat.add_comm]

theorem arrayBytes_slice (w : Nat) (vs : List Nat) {i : Nat} (h : i < vs.length) :
    ((arrayBytes w vs).drop (w * i)).take w = leBytes w vs[i] := by
  induction vs generalizing i with
  | nil => simp at h
  | cons v vs ih =>
    cases i with
    | zero => simp [arrayBytes_cons]
    | succ i =>
      have hd : (arrayBytes w (v :: vs)).drop (w * (i + 1)) = (arrayBytes w vs).drop (w * i) := by
        rw [arrayBytes_cons, Nat.mul_succ, Nat.add_comm, ← List.drop_drop]
        congr 1
        simp
      rw [hd, ih (by simpa using h)]
      simp

/-- Element `i` of a stored array is read back (R47, R48). -/
theorem Memory.memRead_arrayBytes (m : Memory) (d w : Nat) (vs : List Nat) {i : Nat} (h : i < vs.length) :
    (m.writeBytes d (arrayBytes w vs)).memRead (d + w * i) w = some (vs[i] % 256 ^ w) := by
  have hle : w * i + w ≤ (arrayBytes w vs).length := by
    rw [arrayBytes_length, ← Nat.mul_succ]
    exact Nat.mul_le_mul_left w h
  rw [Memory.memRead, Memory.readBytes_writeBytes_slice m d _ hle, arrayBytes_slice w vs h, Option.map_some,
    fromLe_leBytes]

theorem Memory.readAll_length {m : Memory} {w : Nat} {as vs : List Nat} (h : m.readAll w as = some vs) :
    vs.length = as.length := by
  induction as generalizing vs with
  | nil => simp [Memory.readAll] at h; simp [← h]
  | cons a as ih =>
    rw [Memory.readAll] at h
    split at h
    · rename_i h2
      simp only [Option.some.injEq] at h
      rw [← h, List.length_cons, List.length_cons, ih h2]
    · cases h

theorem Memory.readAll_getElem {m : Memory} {w : Nat} {as vs : List Nat} (h : m.readAll w as = some vs) {i : Nat}
    (hi : i < as.length) : m.memRead as[i] w = some (vs[i]'(by rw [Memory.readAll_length h]; exact hi)) := by
  induction as generalizing vs i with
  | nil => simp at hi
  | cons a as ih =>
    rw [Memory.readAll] at h
    split at h
    · rename_i v vs' h1 h2
      simp only [Option.some.injEq] at h
      subst h
      cases i with
      | zero => simpa using h1
      | succ i => simpa using ih h2 (by simpa using hi)
    · cases h

theorem Memory.readAll_isSome {m : Memory} {w : Nat} {as : List Nat} :
    (m.readAll w as).isSome ↔ ∀ a ∈ as, (m.memRead a w).isSome := by
  induction as with
  | nil => simp [Memory.readAll]
  | cons a as ih =>
    rw [List.forall_mem_cons, ← ih, Memory.readAll]
    cases m.memRead a w <;> cases m.readAll w as <;> simp

theorem Memory.readAll_congr {m m' : Memory} {w : Nat} {as : List Nat}
    (h : ∀ a ∈ as, m.memRead a w = m'.memRead a w) : m.readAll w as = m'.readAll w as := by
  induction as with
  | nil => rfl
  | cons a as ih =>
    rw [List.forall_mem_cons] at h
    simp only [Memory.readAll, h.1, ih h.2]

end Sys2Proof.Machine
end

