-- ==== Sys2Proof/Laws/State.lean ====
section
/-! SUPPORT. One lemma per field and update of State, and the small lemmas of STATUS, the fault record and the register file. -/

namespace Sys2Proof.Machine

@[simp] theorem State.issue_cmd (s : State) (w : Word) : (s.issue w).cmd = w := rfl
@[simp] theorem State.issue_status (s : State) (w : Word) : (s.issue w).status = s.status.issue := rfl
@[simp] theorem State.issue_strict (s : State) (w : Word) : (s.issue w).strict = s.strict := rfl
@[simp] theorem State.issue_src (s : State) (w : Word) : (s.issue w).src = s.src := rfl
@[simp] theorem State.issue_src2 (s : State) (w : Word) : (s.issue w).src2 = s.src2 := rfl
@[simp] theorem State.issue_dst (s : State) (w : Word) : (s.issue w).dst = s.dst := rfl
@[simp] theorem State.issue_count (s : State) (w : Word) : (s.issue w).count = s.count := rfl
@[simp] theorem State.issue_nch (s : State) (w : Word) : (s.issue w).nch = s.nch := rfl
@[simp] theorem State.issue_rate (s : State) (w : Word) : (s.issue w).rate = s.rate := rfl
@[simp] theorem State.issue_res0 (s : State) (w : Word) : (s.issue w).res0 = s.res0 := rfl
@[simp] theorem State.issue_res1 (s : State) (w : Word) : (s.issue w).res1 = s.res1 := rfl
@[simp] theorem State.issue_bufSize (s : State) (w : Word) : (s.issue w).bufSize = s.bufSize := rfl
@[simp] theorem State.issue_hdr (s : State) (w : Word) : (s.issue w).hdr = s.hdr := rfl
@[simp] theorem State.issue_buf (s : State) (w : Word) : (s.issue w).buf = s.buf := rfl
@[simp] theorem State.issue_faults (s : State) (w : Word) : (s.issue w).faults = s.faults := rfl
@[simp] theorem State.issue_program (s : State) (w : Word) : (s.issue w).program = s.program := rfl
@[simp] theorem State.issue_schedule (s : State) (w : Word) : (s.issue w).schedule = s.schedule := rfl
@[simp] theorem State.issue_returned (s : State) (w : Word) : (s.issue w).returned = s.returned := rfl

@[simp] theorem State.complete_cmd (s : State) (e : Effect) : (s.complete e).cmd = s.cmd := rfl
@[simp] theorem State.complete_status (s : State) (e : Effect) : (s.complete e).status = s.status.success := rfl
@[simp] theorem State.complete_strict (s : State) (e : Effect) : (s.complete e).strict = s.strict := rfl
@[simp] theorem State.complete_src (s : State) (e : Effect) : (s.complete e).src = s.src := rfl
@[simp] theorem State.complete_src2 (s : State) (e : Effect) : (s.complete e).src2 = s.src2 := rfl
@[simp] theorem State.complete_dst (s : State) (e : Effect) : (s.complete e).dst = s.dst := rfl
@[simp] theorem State.complete_count (s : State) (e : Effect) : (s.complete e).count = s.count := rfl
@[simp] theorem State.complete_nch (s : State) (e : Effect) : (s.complete e).nch = s.nch := rfl
@[simp] theorem State.complete_rate (s : State) (e : Effect) : (s.complete e).rate = s.rate := rfl
@[simp] theorem State.complete_res0 (s : State) (e : Effect) : (s.complete e).res0 = BitVec.ofNat 32 e.res0 := rfl
@[simp] theorem State.complete_res1 (s : State) (e : Effect) : (s.complete e).res1 = BitVec.ofNat 32 e.res1 := rfl
@[simp] theorem State.complete_bufSize (s : State) (e : Effect) : (s.complete e).bufSize = s.bufSize := rfl
@[simp] theorem State.complete_hdr (s : State) (e : Effect) : (s.complete e).hdr = e.hdr.getD s.hdr := rfl
@[simp] theorem State.complete_buf (s : State) (e : Effect) : (s.complete e).buf = s.buf.writeBytes e.dst e.bytes := rfl
@[simp] theorem State.complete_faults (s : State) (e : Effect) : (s.complete e).faults = s.faults := rfl
@[simp] theorem State.complete_program (s : State) (e : Effect) : (s.complete e).program = s.program := rfl
@[simp] theorem State.complete_schedule (s : State) (e : Effect) : (s.complete e).schedule = s.schedule := rfl
@[simp] theorem State.complete_returned (s : State) (e : Effect) : (s.complete e).returned = s.returned := rfl

@[simp] theorem State.deviceError_cmd (s : State) (c : ErrCode) : (s.deviceError c).cmd = s.cmd := rfl
@[simp] theorem State.deviceError_status (s : State) (c : ErrCode) : (s.deviceError c).status = s.status.failure c := rfl
@[simp] theorem State.deviceError_strict (s : State) (c : ErrCode) : (s.deviceError c).strict = s.strict := rfl
@[simp] theorem State.deviceError_src (s : State) (c : ErrCode) : (s.deviceError c).src = s.src := rfl
@[simp] theorem State.deviceError_src2 (s : State) (c : ErrCode) : (s.deviceError c).src2 = s.src2 := rfl
@[simp] theorem State.deviceError_dst (s : State) (c : ErrCode) : (s.deviceError c).dst = s.dst := rfl
@[simp] theorem State.deviceError_count (s : State) (c : ErrCode) : (s.deviceError c).count = s.count := rfl
@[simp] theorem State.deviceError_nch (s : State) (c : ErrCode) : (s.deviceError c).nch = s.nch := rfl
@[simp] theorem State.deviceError_rate (s : State) (c : ErrCode) : (s.deviceError c).rate = s.rate := rfl
@[simp] theorem State.deviceError_res0 (s : State) (c : ErrCode) : (s.deviceError c).res0 = s.res0 := rfl
@[simp] theorem State.deviceError_res1 (s : State) (c : ErrCode) : (s.deviceError c).res1 = s.res1 := rfl
@[simp] theorem State.deviceError_bufSize (s : State) (c : ErrCode) : (s.deviceError c).bufSize = s.bufSize := rfl
@[simp] theorem State.deviceError_hdr (s : State) (c : ErrCode) : (s.deviceError c).hdr = s.hdr := rfl
@[simp] theorem State.deviceError_buf (s : State) (c : ErrCode) : (s.deviceError c).buf = s.buf := rfl
@[simp] theorem State.deviceError_faults (s : State) (c : ErrCode) : (s.deviceError c).faults = s.faults := rfl
@[simp] theorem State.deviceError_program (s : State) (c : ErrCode) : (s.deviceError c).program = s.program := rfl
@[simp] theorem State.deviceError_schedule (s : State) (c : ErrCode) : (s.deviceError c).schedule = s.schedule := rfl
@[simp] theorem State.deviceError_returned (s : State) (c : ErrCode) : (s.deviceError c).returned = s.returned := rfl

@[simp] theorem State.modelFault_cmd (s : State) (k : FaultKind) : (s.modelFault k).cmd = s.cmd := rfl
@[simp] theorem State.modelFault_status (s : State) (k : FaultKind) : (s.modelFault k).status = s.status := rfl
@[simp] theorem State.modelFault_strict (s : State) (k : FaultKind) : (s.modelFault k).strict = s.strict := rfl
@[simp] theorem State.modelFault_src (s : State) (k : FaultKind) : (s.modelFault k).src = s.src := rfl
@[simp] theorem State.modelFault_src2 (s : State) (k : FaultKind) : (s.modelFault k).src2 = s.src2 := rfl
@[simp] theorem State.modelFault_dst (s : State) (k : FaultKind) : (s.modelFault k).dst = s.dst := rfl
@[simp] theorem State.modelFault_count (s : State) (k : FaultKind) : (s.modelFault k).count = s.count := rfl
@[simp] theorem State.modelFault_nch (s : State) (k : FaultKind) : (s.modelFault k).nch = s.nch := rfl
@[simp] theorem State.modelFault_rate (s : State) (k : FaultKind) : (s.modelFault k).rate = s.rate := rfl
@[simp] theorem State.modelFault_res0 (s : State) (k : FaultKind) : (s.modelFault k).res0 = s.res0 := rfl
@[simp] theorem State.modelFault_res1 (s : State) (k : FaultKind) : (s.modelFault k).res1 = s.res1 := rfl
@[simp] theorem State.modelFault_bufSize (s : State) (k : FaultKind) : (s.modelFault k).bufSize = s.bufSize := rfl
@[simp] theorem State.modelFault_hdr (s : State) (k : FaultKind) : (s.modelFault k).hdr = s.hdr := rfl
@[simp] theorem State.modelFault_buf (s : State) (k : FaultKind) : (s.modelFault k).buf = s.buf := rfl
@[simp] theorem State.modelFault_faults (s : State) (k : FaultKind) : (s.modelFault k).faults = s.faults.add k := rfl
@[simp] theorem State.modelFault_program (s : State) (k : FaultKind) : (s.modelFault k).program = s.program := rfl
@[simp] theorem State.modelFault_schedule (s : State) (k : FaultKind) : (s.modelFault k).schedule = s.schedule := rfl
@[simp] theorem State.modelFault_returned (s : State) (k : FaultKind) : (s.modelFault k).returned = s.returned := rfl

@[simp] theorem State.complete_bufBytes (s : State) (e : Effect) : (s.complete e).bufBytes = s.bufBytes := rfl
@[simp] theorem State.deviceError_bufBytes (s : State) (c : ErrCode) : (s.deviceError c).bufBytes = s.bufBytes := rfl
@[simp] theorem State.modelFault_bufBytes (s : State) (k : FaultKind) : (s.modelFault k).bufBytes = s.bufBytes := rfl
@[simp] theorem State.issue_bufBytes (s : State) (w : Word) : (s.issue w).bufBytes = s.bufBytes := rfl

@[simp] theorem State.finish_complete (s : State) (e : Effect) : s.finish (.complete e) = s.complete e := rfl
@[simp] theorem State.finish_error (s : State) (c : ErrCode) : s.finish (.error c) = s.deviceError c := rfl
@[simp] theorem State.finish_modelFault (s : State) (k : FaultKind) : s.finish (.modelFault k) = s.modelFault k := rfl

@[simp] theorem Status.issue_busy (st : Status) : st.issue.busy = true := rfl
@[simp] theorem Status.issue_done (st : Status) : st.issue.done = false := rfl
@[simp] theorem Status.issue_err (st : Status) : st.issue.err = false := rfl
@[simp] theorem Status.issue_sticky (st : Status) : st.issue.sticky = st.sticky := rfl
@[simp] theorem Status.issue_errcode (st : Status) : st.issue.errcode = .none := rfl
@[simp] theorem Status.success_busy (st : Status) : st.success.busy = false := rfl
@[simp] theorem Status.success_done (st : Status) : st.success.done = true := rfl
@[simp] theorem Status.success_err (st : Status) : st.success.err = false := rfl
@[simp] theorem Status.success_sticky (st : Status) : st.success.sticky = st.sticky := rfl
@[simp] theorem Status.success_errcode (st : Status) : st.success.errcode = .none := rfl
@[simp] theorem Status.failure_busy (st : Status) (e : ErrCode) : (st.failure e).busy = false := rfl
@[simp] theorem Status.failure_done (st : Status) (e : ErrCode) : (st.failure e).done = true := rfl
@[simp] theorem Status.failure_err (st : Status) (e : ErrCode) : (st.failure e).err = true := rfl
@[simp] theorem Status.failure_sticky (st : Status) (e : ErrCode) : (st.failure e).sticky = true := rfl
@[simp] theorem Status.failure_errcode (st : Status) (e : ErrCode) : (st.failure e).errcode = e := rfl
@[simp] theorem Status.hostWrite_busy (st : Status) (v : Word) : (st.hostWrite v).busy = st.busy := rfl
@[simp] theorem Status.hostWrite_done (st : Status) (v : Word) : (st.hostWrite v).done = st.done := rfl
@[simp] theorem Status.hostWrite_err (st : Status) (v : Word) : (st.hostWrite v).err = st.err := rfl
@[simp] theorem Status.hostWrite_sticky (st : Status) (v : Word) : (st.hostWrite v).sticky = (st.sticky && !v.getLsbD 3) := rfl
@[simp] theorem Status.hostWrite_errcode (st : Status) (v : Word) : (st.hostWrite v).errcode = st.errcode := rfl

/-- A kind is in the record after a fault exactly if it was there before or is the one added (R39). -/
theorem FaultRecord.has_add (r : FaultRecord) (k j : FaultKind) : (r.add k).has j = (r.has j || decide (j = k)) := by
  cases k <;> cases j <;> simp [FaultRecord.add, FaultRecord.has]

/-- Recording a kind twice is recording it once: the record is a set (R39). -/
@[simp] theorem FaultRecord.add_add (r : FaultRecord) (k : FaultKind) : (r.add k).add k = r.add k := by
  cases k <;> rfl

/-- The decoder of register offsets reads back every offset of R19. -/
@[simp] theorem Reg.ofOffset_offset (r : Reg) : Reg.ofOffset r.offset = some r := by
  cases r with
  | hdr k => revert k; decide
  | _ => rfl

/-- An offset that names a register is that register's own. -/
theorem Reg.offset_of_ofOffset {off : Nat} {r : Reg} (h : Reg.ofOffset off = some r) : off = r.offset := by
  unfold Reg.ofOffset at h
  split at h
  · cases h
  · rename_i hmod
    have hmod : off % 4 = 0 := by simpa using hmod
    split at h
    all_goals first
      | (rename_i hk; cases h; simp only [Reg.offset]; omega)
      | (split at h
         · cases h; simp only [Reg.offset]; omega
         · cases h)

end Sys2Proof.Machine
end

