-- ==== Sys2Proof/Laws/Commands.lean ====
section
/-! SUPPORT. One lemma per shared operation of the commands, and what a command's rule can answer: which range it writes,
which header it gives, which errors and faults it ends in. -/

namespace Sys2Proof.Machine

/-! ### The rule of a command, by command -/

/-- The rule `exec` runs for a command. -/
def runOf (i : Instr) (s : State) : CmdResult :=
  match i with
  | .nop => runNop
  | .merge => runMerge s
  | .separate => runSeparate s
  | .qenc => runQenc s
  | .qdec => runQdec s
  | .hbuild => runHbuild s
  | .assemble => runAssemble s
  | .hparse => runHparse s

/-- Every command ends in its one step (R96): the rule's answer, finished. -/
theorem exec_eq_finish (i : Instr) (s : State) : exec i s = .next (s.finish (runOf i s)) := by
  cases i <;> rfl

/-- What the engine's step runs: the rule of the decoded command, or ILLEGAL_CMD (R67). -/
def engineResult (s : State) : CmdResult :=
  match decode s.cmd with
  | .instr i => runOf i s
  | .illegal _ => .error .illegalCmd

theorem engineStep_eq_finish (s : State) : engineStep s = .next (s.finish (engineResult s)) := by
  unfold engineStep engineResult
  cases decode s.cmd with
  | instr i => exact exec_eq_finish i s
  | illegal _ => rfl

theorem engineTurn_busy {s : State} (h : s.status.busy = true) : engineTurn s = .next (s.finish (engineResult s)) := by
  rw [engineTurn, if_pos h, engineStep_eq_finish]

theorem engineTurn_idle {s : State} (h : s.status.busy = false) : engineTurn s = .next s := by
  simp [engineTurn, h]

/-! ### Lists of addresses -/

@[simp] theorem elemAddrs_length (base w n : Nat) : (elemAddrs base w n).length = n := by
  simp [elemAddrs]

@[simp] theorem elemAddrs_getElem (base w n i : Nat) (h : i < (elemAddrs base w n).length) :
    (elemAddrs base w n)[i] = base + w * i := by
  simp [elemAddrs]

theorem mem_elemAddrs {base w n a : Nat} : a ∈ elemAddrs base w n ↔ ∃ k < n, base + w * k = a := by
  simp [elemAddrs]

/-- A list made of equal blocks has the blocks' total length. -/
theorem flatMap_range_length {α : Type} (f : Nat → List α) (n : Nat) (h : ∀ t, (f t).length = n) (L : Nat) :
    ((List.range L).flatMap f).length = L * n := by
  induction L with
  | zero => simp
  | succ L ih => rw [List.range_succ, List.flatMap_append, List.length_append, ih]; simp [h, Nat.succ_mul]

/-- Item `c` of block `t` stands at `t * n + c`. -/
theorem flatMap_range_getElem {α : Type} (f : Nat → List α) (n : Nat) (h : ∀ t, (f t).length = n) {L t c : Nat}
    (ht : t < L) (hc : c < n) : ((List.range L).flatMap f)[t * n + c]? = (f t)[c]? := by
  induction L with
  | zero => omega
  | succ L ih =>
    rw [List.range_succ, List.flatMap_append]
    rcases Nat.lt_or_ge t L with h1 | h1
    · have : t * n + c < L * n := by
        have := Nat.mul_le_mul_right n (show t + 1 ≤ L from h1)
        rw [Nat.succ_mul] at this
        omega
      rw [List.getElem?_append_left (by rw [flatMap_range_length f n h]; exact this)]
      exact ih h1
    · have ht' : t = L := by omega
      subst ht'
      rw [List.getElem?_append_right (by rw [flatMap_range_length f n h]; omega), flatMap_range_length f n h]
      simp

@[simp] theorem mergeAddrs_length (chans : List Channel) (L : Nat) :
    (mergeAddrs chans L).length = L * chans.length :=
  flatMap_range_length _ _ (by simp) L

/-- Output element `t * N + c` of MERGE is frame `t` of channel `c` (R77). -/
theorem mergeAddrs_getElem {chans : List Channel} {L t c : Nat} (ht : t < L) (hc : c < chans.length) :
    (mergeAddrs chans L)[t * chans.length + c]? = some (chans[c].1 + 8 * t) := by
  rw [mergeAddrs, flatMap_range_getElem _ chans.length (by simp) ht hc]
  simp [hc]

theorem mem_mergeAddrs {chans : List Channel} {L a : Nat} :
    a ∈ mergeAddrs chans L ↔ ∃ t < L, ∃ c ∈ chans, c.1 + 8 * t = a := by
  simp only [mergeAddrs, List.mem_flatMap, List.mem_range, List.mem_map]

@[simp] theorem separateAddrs_length (src n L : Nat) : (separateAddrs src n L).length = n * L :=
  flatMap_range_length _ _ (by simp) n

/-- Output element `c * L + t` of SEPARATE is input element `t * N + c` (R77, R79). -/
theorem separateAddrs_getElem {src n L t c : Nat} (ht : t < L) (hc : c < n) :
    (separateAddrs src n L)[c * L + t]? = some (src + 8 * (t * n + c)) := by
  rw [separateAddrs, flatMap_range_getElem _ L (by simp) hc ht]
  simp [ht]

theorem mem_separateAddrs {src n L a : Nat} :
    a ∈ separateAddrs src n L ↔ ∃ c < n, ∃ t < L, src + 8 * (t * n + c) = a := by
  simp only [separateAddrs, List.mem_flatMap, List.mem_range, List.mem_map]

/-! ### Descriptors and the shortest channel -/

theorem readDescriptors_length {m : Memory} {ds : List Nat} {cs : List Channel} (h : readDescriptors m ds = some cs) :
    cs.length = ds.length := by
  induction ds generalizing cs with
  | nil => simp [readDescriptors] at h; simp [← h]
  | cons d ds ih =>
    rw [readDescriptors] at h
    split at h
    · rename_i h2
      simp only [Option.some.injEq] at h
      rw [← h, List.length_cons, List.length_cons, ih h2]
    · cases h

/-- Reading the descriptors at a list of addresses whose contents are known. -/
theorem readDescriptors_map {m : Memory} {ds : List Nat} {f : Nat → Channel}
    (h : ∀ d ∈ ds, m.memRead d 4 = some (f d).1 ∧ m.memRead (d + 4) 4 = some (f d).2) :
    readDescriptors m ds = some (ds.map f) := by
  induction ds with
  | nil => rfl
  | cons d ds ih =>
    rw [List.forall_mem_cons] at h
    obtain ⟨⟨h1, h2⟩, h3⟩ := h
    simp only [readDescriptors, readDescriptor, h1, h2, ih h3, List.map_cons]

/-- The channels of a MERGE whose table is known (R73, R78). -/
theorem readDescriptors_table {s : State} {base len : Nat → Nat} (h : DescriptorsAre s base len) :
    readDescriptors s.buf (elemAddrs s.srcVal 8 s.nchVal)
      = some ((List.range s.nchVal).map (fun c => (base c, len c))) := by
  have key : readDescriptors s.buf (elemAddrs s.srcVal 8 s.nchVal)
      = some ((elemAddrs s.srcVal 8 s.nchVal).map
          (fun d => (base ((d - s.srcVal) / 8), len ((d - s.srcVal) / 8)))) := by
    refine readDescriptors_map fun d hd => ?_
    obtain ⟨c, hc, rfl⟩ := mem_elemAddrs.mp hd
    have hi : (s.srcVal + 8 * c - s.srcVal) / 8 = c := by omega
    simpa [hi] using h.2 c hc
  rw [key, elemAddrs, List.map_map]
  congr 1
  refine List.map_congr_left fun c _ => ?_
  simp

theorem minLen_le {chans : List Channel} {c : Channel} (h : c ∈ chans) : minLen chans ≤ c.2 := by
  induction chans with
  | nil => simp at h
  | cons d ds ih =>
    cases ds with
    | nil => simp at h; simp [minLen, h]
    | cons e es =>
      rcases List.mem_cons.mp h with rfl | h
      · exact Nat.min_le_left _ _
      · exact le_trans (Nat.min_le_right _ _) (ih h)

theorem exists_minLen {chans : List Channel} (h : chans ≠ []) : ∃ c ∈ chans, c.2 = minLen chans := by
  induction chans with
  | nil => exact absurd rfl h
  | cons d ds ih =>
    cases ds with
    | nil => exact ⟨d, by simp, rfl⟩
    | cons e es =>
      obtain ⟨c, hc, hm⟩ := ih (by simp)
      rcases Nat.le_total d.2 (minLen (e :: es)) with h1 | h1
      · exact ⟨d, by simp, by simp [minLen, h1]⟩
      · exact ⟨c, List.mem_cons_of_mem _ hc, by rw [hm]; simp [minLen, h1]⟩

/-- `minLen` is the length of the shortest channel (R78). -/
theorem minLen_eq {n L : Nat} {base len : Nat → Nat} (h : IsShortest n len L) :
    minLen ((List.range n).map (fun c => (base c, len c))) = L := by
  obtain ⟨⟨c, hc, hL⟩, hmin⟩ := h
  have hne : (List.range n).map (fun c => (base c, len c)) ≠ [] := by
    simp only [ne_eq, List.map_eq_nil_iff, List.range_eq_nil]
    omega
  obtain ⟨d, hd, hdm⟩ := exists_minLen hne
  have h1 := minLen_le (chans := (List.range n).map (fun c => (base c, len c))) (c := (base c, len c))
    (List.mem_map.mpr ⟨c, List.mem_range.mpr hc, rfl⟩)
  obtain ⟨k, hk, rfl⟩ := List.mem_map.mp hd
  have h2 := hmin k (List.mem_range.mp hk)
  simp only at h1 hdm
  omega

/-! ### Quantizing an array -/

theorem quantizeAll_length {bs : List Nat} {qs : List Pcm} (h : quantizeAll bs = some qs) : qs.length = bs.length := by
  induction bs generalizing qs with
  | nil => simp [quantizeAll] at h; simp [← h]
  | cons b bs ih =>
    rw [quantizeAll] at h
    split at h
    · rename_i h2
      simp only [Option.some.injEq] at h
      rw [← h, List.length_cons, List.length_cons, ih h2]
    · cases h

theorem quantizeAll_getElem {bs : List Nat} {qs : List Pcm} (h : quantizeAll bs = some qs) {i : Nat}
    (hi : i < bs.length) :
    quantize (BitVec.ofNat 64 bs[i]) = some (qs[i]'(by rw [quantizeAll_length h]; exact hi)) := by
  induction bs generalizing qs i with
  | nil => simp at hi
  | cons b bs ih =>
    rw [quantizeAll] at h
    split at h
    · rename_i q qs' h1 h2
      simp only [Option.some.injEq] at h
      subst h
      cases i with
      | zero => simpa using h1
      | succ i => simpa using ih h2 (by simpa using hi)
    · cases h

theorem quantizeAll_isSome {bs : List Nat} :
    (quantizeAll bs).isSome ↔ ∀ b ∈ bs, (quantize (BitVec.ofNat 64 b)).isSome := by
  induction bs with
  | nil => simp [quantizeAll]
  | cons b bs ih =>
    rw [List.forall_mem_cons, ← ih, quantizeAll]
    cases quantize (BitVec.ofNat 64 b) <;> cases quantizeAll bs <;> simp

/-! ### The header -/

@[simp] theorem headerBytes_length (c n r : Nat) : (headerBytes c n r).length = 44 := by
  simp [headerBytes, tagRiff, tagWave, tagFmt, tagData]

/-- The thirteen fields of the header stand at the offsets of R72. -/
theorem headerBytes_slices (c n r : Nat) :
    ((headerBytes c n r).drop 0).take 4 = tagRiff ∧
    ((headerBytes c n r).drop 4).take 4 = leBytes 4 (36 + 2 * c) ∧
    ((headerBytes c n r).drop 8).take 4 = tagWave ∧
    ((headerBytes c n r).drop 12).take 4 = tagFmt ∧
    ((headerBytes c n r).drop 16).take 4 = leBytes 4 16 ∧
    ((headerBytes c n r).drop 20).take 2 = leBytes 2 1 ∧
    ((headerBytes c n r).drop 22).take 2 = leBytes 2 n ∧
    ((headerBytes c n r).drop 24).take 4 = leBytes 4 r ∧
    ((headerBytes c n r).drop 28).take 4 = leBytes 4 (r * (2 * n)) ∧
    ((headerBytes c n r).drop 32).take 2 = leBytes 2 (2 * n) ∧
    ((headerBytes c n r).drop 34).take 2 = leBytes 2 16 ∧
    ((headerBytes c n r).drop 36).take 4 = tagData ∧
    ((headerBytes c n r).drop 40).take 4 = leBytes 4 (2 * c) := by
  simp [headerBytes, leBytes, tagRiff, tagWave, tagFmt, tagData]

theorem field_lt (h : List Byte) (off len : Nat) : field h off len < 256 ^ len := by
  refine lt_of_lt_of_le (fromLe_lt _) (Nat.pow_le_pow_right (by omega) ?_)
  simp

theorem headerRegs_zeroExtended (h : List Byte) : HdrZeroExtended (headerRegs h) := by
  have h1 := field_lt h 20 2
  have h2 := field_lt h 22 2
  have h3 := field_lt h 32 2
  have h4 := field_lt h 34 2
  refine ⟨?_, ?_, ?_, ?_⟩ <;> simp only [headerRegs, Vector.getElem_mk, List.getElem_toArray, List.getElem_cons_succ,
    List.getElem_cons_zero, BitVec.toNat_ofNat] <;> omega

/-! ### What a command's rule can answer -/

/-- A command's writes lie in BUF, and the header it gives has fields of the header's widths. -/
structure EffectOk (s : State) (e : Effect) : Prop where
  inside : s.inBuf e.dst e.bytes.length
  hdr : ∀ h, e.hdr = some h → HdrZeroExtended h

/-- A command's rule answers a success whose writes lie in BUF, a device error with a code of R100 other than 0, or
UNINIT_READ: the three ways of R99. -/
def ResultOk (s : State) : CmdResult → Prop
  | .complete e => EffectOk s e
  | .error c => c ≠ .none
  | .modelFault k => k = .uninitRead

theorem runNop_ok (s : State) : ResultOk s runNop := ⟨.inl rfl, by simp⟩

theorem mergeChannels_ok {s : State} {chans : List Channel} (h : chans.length = s.nchVal) :
    ResultOk s (mergeChannels s chans) := by
  unfold mergeChannels
  simp only
  split
  · simp [ResultOk]
  · split
    · simp [ResultOk]
    · rename_i hin
      split
      · simp [ResultOk]
      · split
        · simp [ResultOk]
        · split
          · simp [ResultOk]
          · rename_i e he
            have hl := Memory.readAll_length he
            rw [mergeAddrs_length, h] at hl
            refine ⟨?_, by simp⟩
            rw [arrayBytes_length, hl, Nat.mul_comm _ s.nchVal, ← Nat.mul_assoc]
            exact not_not.mp hin

theorem runMerge_ok (s : State) : ResultOk s (runMerge s) := by
  unfold runMerge
  simp only
  split
  · exact ⟨.inl rfl, by simp⟩
  · split
    · simp [ResultOk]
    · split
      · simp [ResultOk]
      · rename_i h
        exact mergeChannels_ok (by rw [readDescriptors_length h, elemAddrs_length])

theorem runSeparate_ok (s : State) : ResultOk s (runSeparate s) := by
  unfold runSeparate
  simp only
  split
  · simp [ResultOk]
  · split
    · simp [ResultOk]
    · split
      · simp [ResultOk]
      · rename_i hin
        split
        · simp [ResultOk]
        · split
          · simp [ResultOk]
          · rename_i e he
            have hl := Memory.readAll_length he
            rw [separateAddrs_length] at hl
            refine ⟨?_, by simp⟩
            rw [arrayBytes_length, hl, ← Nat.mul_assoc]
            exact not_not.mp hin

theorem runQenc_ok (s : State) : ResultOk s (runQenc s) := by
  unfold runQenc
  simp only
  split
  · simp [ResultOk]
  · split
    · simp [ResultOk]
    · rename_i hin
      split
      · simp [ResultOk]
      · split
        · simp [ResultOk]
        · rename_i xs hx
          split
          · simp [ResultOk]
          · rename_i qs hq
            have hl := Memory.readAll_length hx
            rw [elemAddrs_length] at hl
            refine ⟨?_, by simp⟩
            rw [arrayBytes_length, List.length_map, quantizeAll_length hq, hl]
            exact not_not.mp hin

theorem runQdec_ok (s : State) : ResultOk s (runQdec s) := by
  unfold runQdec
  simp only
  split
  · simp [ResultOk]
  · split
    · simp [ResultOk]
    · split
      · simp [ResultOk]
      · rename_i hin
        split
        · simp [ResultOk]
        · split
          · simp [ResultOk]
          · rename_i vs hv
            have hl := Memory.readAll_length hv
            rw [elemAddrs_length] at hl
            refine ⟨?_, by simp⟩
            rw [arrayBytes_length, List.length_map, hl]
            exact not_not.mp hin

theorem runHbuild_ok (s : State) : ResultOk s (runHbuild s) := by
  unfold runHbuild
  simp only
  split
  · simp [ResultOk]
  · rename_i hin
    split
    · simp [ResultOk]
    · refine ⟨?_, by simp⟩
      rw [headerBytes_length]
      exact not_not.mp hin

theorem runAssemble_ok (s : State) : ResultOk s (runAssemble s) := by
  unfold runAssemble
  simp only
  split
  · simp [ResultOk]
  · split
    · simp [ResultOk]
    · split
      · simp [ResultOk]
      · rename_i hin
        split
        · simp [ResultOk]
        · split
          · simp [ResultOk]
          · split
            · rename_i hh hp
              refine ⟨?_, by simp⟩
              rw [List.length_append, Memory.readBytes_length hh, Memory.readBytes_length hp]
              exact not_not.mp hin
            · simp [ResultOk]

theorem runHparse_ok (s : State) : ResultOk s (runHparse s) := by
  unfold runHparse
  simp only
  split
  · simp [ResultOk]
  · split
    · simp [ResultOk]
    · split
      · simp [ResultOk]
      · split
        · simp [ResultOk]
        · exact ⟨.inl rfl, fun h hh => by simp at hh; exact hh ▸ headerRegs_zeroExtended _⟩

/-- Every command ends in one of the three ways of R99. -/
theorem runOf_ok (i : Instr) (s : State) : ResultOk s (runOf i s) := by
  cases i with
  | nop => exact runNop_ok s
  | merge => exact runMerge_ok s
  | separate => exact runSeparate_ok s
  | qenc => exact runQenc_ok s
  | qdec => exact runQdec_ok s
  | hbuild => exact runHbuild_ok s
  | assemble => exact runAssemble_ok s
  | hparse => exact runHparse_ok s

/-- So does the engine's step, an illegal word included (R68). -/
theorem engineResult_ok (s : State) : ResultOk s (engineResult s) := by
  unfold engineResult
  cases decode s.cmd with
  | instr i => exact runOf_ok i s
  | illegal _ => simp [ResultOk]

end Sys2Proof.Machine
end

