-- ==== Sys2Proof/Laws/Host.lean ====
section
/-! SUPPORT. What a host access, a host turn and a step can do: one inversion lemma each. -/

namespace Sys2Proof.Machine

/-- A REG access that is not BUS_ERROR is a 4-byte access at some register's offset (R49). -/
theorem regTarget_eq_some {off : Nat} {w : Width} {r : Reg} (h : regTarget off w = some r) :
    w = .w4 ∧ off = r.offset := by
  cases w with
  | w4 => exact ⟨rfl, Reg.offset_of_ofOffset h⟩
  | w1 => cases h
  | w2 => cases h
  | w8 => cases h

@[simp] theorem regTarget_offset (r : Reg) : regTarget r.offset .w4 = some r := Reg.ofOffset_offset r

/-- Everything one host access can do (R49 to R51, R54, R113): a model fault that changes only the record, a read that
changes nothing, a register write, an UNINIT_READ, or a BUF write; the last three only while BUSY = 0. -/
theorem hostAccess_cases (s : State) (a : Access) :
    (∃ bus, s.hostAccess a = s.accessFault bus) ∨
    (∃ v, s.hostAccess a = { s with returned := some v }) ∨
    (∃ r v, s.status.busy = false ∧ a = .write .reg r.offset .w4 v ∧
      s.hostAccess a = { s.writeReg r (v.setWidth 32) with returned := none }) ∨
    (s.status.busy = false ∧ s.hostAccess a = { s.modelFault .uninitRead with returned := none }) ∨
    (∃ x w v, s.status.busy = false ∧ x + Width.bytes w ≤ s.bufBytes ∧ a = .write .buf x w v ∧
      s.hostAccess a = { s with buf := s.buf.memWrite x w.bytes v.toNat, returned := none }) := by
  cases a with
  | read space loc width =>
    cases space with
    | reg =>
      cases h : regTarget loc width with
      | none => exact .inl ⟨true, by simp [State.hostAccess, h]⟩
      | some r =>
        simp only [State.hostAccess, h, State.hostReadReg]
        split
        · exact .inl ⟨false, rfl⟩
        · exact .inr (.inl ⟨_, rfl⟩)
    | buf =>
      simp only [State.hostAccess, State.hostReadBuf]
      split
      · split
        · exact .inl ⟨false, rfl⟩
        · rename_i hb
          split
          · exact .inr (.inl ⟨_, rfl⟩)
          · exact .inr (.inr (.inr (.inl ⟨by simpa using hb, rfl⟩)))
      · exact .inl ⟨true, rfl⟩
  | write space loc width v =>
    cases space with
    | reg =>
      cases h : regTarget loc width with
      | none => exact .inl ⟨true, by simp [State.hostAccess, h]⟩
      | some r =>
        obtain ⟨rfl, rfl⟩ := regTarget_eq_some h
        simp only [State.hostAccess, h, State.hostWriteReg]
        split
        · exact .inl ⟨false, rfl⟩
        · rename_i hb
          exact .inr (.inr (.inl ⟨r, v, by simpa using hb, rfl, rfl⟩))
    | buf =>
      simp only [State.hostAccess, State.hostWriteBuf]
      split
      · rename_i hin
        split
        · exact .inl ⟨false, rfl⟩
        · rename_i hb
          exact .inr (.inr (.inr (.inr ⟨loc, width, v, by simpa using hb, hin, rfl, rfl⟩)))
      · exact .inl ⟨true, rfl⟩

/-- A host access while BUSY = 1 (R113): HAZARD, and BUS_ERROR where R49 or R50 forbids it, unless it is a register read. -/
theorem hostAccess_busy {s : State} (a : Access) (hb : s.status.busy = true) :
    s.hostAccess a = s.accessFault (s.forbids a) ∨
    (∃ r, r.busyReadable = true ∧ a = .read .reg r.offset .w4 ∧
      s.hostAccess a = { s with returned := some ((s.readReg r).setWidth 64) }) := by
  cases a with
  | read space loc width =>
    cases space with
    | reg =>
      cases h : regTarget loc width with
      | none => exact .inl (by simp [State.hostAccess, State.forbids, h])
      | some r =>
        obtain ⟨rfl, rfl⟩ := regTarget_eq_some h
        cases hr : r.busyReadable with
        | false => exact .inl (by simp [State.hostAccess, State.forbids, State.hostReadReg, hb, hr])
        | true => exact .inr ⟨r, hr, rfl, by simp [State.hostAccess, State.hostReadReg, hr]⟩
    | buf =>
      refine .inl ?_
      simp only [State.hostAccess, State.forbids, State.hostReadBuf, hb, if_true]
      split <;> congr 1 <;> simp <;> omega
  | write space loc width v =>
    refine .inl ?_
    cases space with
    | reg =>
      cases h : regTarget loc width with
      | none => simp [State.hostAccess, State.forbids, h]
      | some r => simp [State.hostAccess, State.forbids, State.hostWriteReg, h, hb]
    | buf =>
      simp only [State.hostAccess, State.forbids, State.hostWriteBuf, hb, if_true]
      split <;> congr 1 <;> simp <;> omega

theorem hostTurn_access {s : State} {a : Access} {rest : List HostOp} (h : s.program = .access a :: rest) :
    s.hostTurn = { s with program := rest }.hostAccess a := by
  simp only [State.hostTurn, h]

theorem hostTurn_done {s : State} (h : s.program = []) : s.hostTurn = s := by
  simp only [State.hostTurn, h]

theorem step_host {s : State} {rest : List Turn} (h : s.schedule = .host :: rest) :
    step s = .next ({ s with schedule := rest }).hostTurn := by
  simp only [step, h]

theorem step_idle {s : State} (h : s.schedule = []) (hb : s.status.busy = false) : step s = .next s.hostTurn := by
  simp [step, h, hb]

/-- Everything the host's turn can do: nothing, one access of its program, or one poll of STATUS (R76). -/
theorem hostTurn_cases (s : State) :
    s.hostTurn = s ∨
    (∃ a rest, s.program = .access a :: rest ∧ s.hostTurn = { s with program := rest }.hostAccess a) ∨
    (∃ rest p, s.program = .wait :: rest ∧
      s.hostTurn = { s with program := p, returned := some (s.status.word.setWidth 64) }) := by
  unfold State.hostTurn
  split
  · exact .inl rfl
  · rename_i a rest h
    exact .inr (.inl ⟨a, rest, h, rfl⟩)
  · rename_i rest h
    refine .inr (.inr ?_)
    split
    · exact ⟨rest, s.program, h, by simp [State.hostReadReg, Reg.busyReadable, State.readReg]⟩
    · exact ⟨rest, rest, h, by simp [State.hostReadReg, Reg.busyReadable, State.readReg]⟩

/-- Everything one step can do: the engine's turn, the host's turn, or a reset, on the state with the turn taken off the
schedule. -/
theorem step_cases {s t : State} (h : step s = .next t) :
    ∃ rest, ((s.schedule = .engine :: rest ∨ (s.schedule = [] ∧ rest = [] ∧ s.status.busy = true)) ∧
        engineTurn { s with schedule := rest } = .next t) ∨
      (s.schedule = .host :: rest ∧ t = ({ s with schedule := rest }).hostTurn) ∨
      (s.schedule = [] ∧ rest = [] ∧ s.status.busy = false ∧ t = s.hostTurn) ∨
      (s.schedule = .reset :: rest ∧ t = ({ s with schedule := rest }).resetEvent) := by
  unfold step at h
  split at h
  · rename_i rest hs
    cases h
    exact ⟨rest, .inr (.inl ⟨hs, rfl⟩)⟩
  · rename_i rest hs
    exact ⟨rest, .inl ⟨.inl hs, h⟩⟩
  · rename_i rest hs
    cases h
    exact ⟨rest, .inr (.inr (.inr ⟨hs, rfl⟩))⟩
  · rename_i hs
    have hsame : { s with schedule := [] } = s := by rw [← hs]
    split at h
    · rename_i hb
      exact ⟨[], .inl ⟨.inr ⟨hs, rfl, hb⟩, by rw [hsame]; exact h⟩⟩
    · rename_i hb
      cases h
      exact ⟨[], .inr (.inr (.inl ⟨hs, rfl, by simpa using hb, rfl⟩))⟩

end Sys2Proof.Machine
end

