-- ==== Sys2Proof/Laws/PerInstr.lean ====
section
/-! SUPPORT. Statements for all commands, one lemma per constructor. -/

namespace Sys2Proof.Laws.RoundTrip

/-- A command is well formed, its word has RSVD = 0, and decoding that word gives the command back (R65 to R67). -/
def Statement (i : Instr) : Prop := i.wf = true ∧ rsvd (encode i) = 0 ∧ decode (encode i) = .instr i

theorem nop : Statement .nop := ⟨rfl, by decide, by decide⟩
theorem merge : Statement .merge := ⟨rfl, by decide, by decide⟩
theorem separate : Statement .separate := ⟨rfl, by decide, by decide⟩
theorem qenc : Statement .qenc := ⟨rfl, by decide, by decide⟩
theorem qdec : Statement .qdec := ⟨rfl, by decide, by decide⟩
theorem hbuild : Statement .hbuild := ⟨rfl, by decide, by decide⟩
theorem assemble : Statement .assemble := ⟨rfl, by decide, by decide⟩
theorem hparse : Statement .hparse := ⟨rfl, by decide, by decide⟩

end Sys2Proof.Laws.RoundTrip
end

