-- ==== Sys2Proof/Tests/Slice0.lean ====
section
/-! SUPPORT. Tests: command words written out from R65 and R66, vectors of 95_test_vectors.md (each test names its own), and
for every statement with hypotheses a concrete state that meets them. -/

namespace Sys2Proof.Tests

open Sys2Proof.Machine

/-! ### Small states -/

/-- The reset state (BUF_BYTES = 4096) with four operand registers. -/
def ops (src dst count : Word) (nch : BitVec 16) : State :=
  { State.reset with src := src, dst := dst, count := count, nch := nch }

/-- `s` with bytes written in BUF. -/
def put (s : State) (a : Nat) (bs : List Byte) : State := { s with buf := s.buf.writeBytes a bs }

/-- Real samples as BUF bytes. -/
def reals (xs : List QWord) : List Byte := arrayBytes 8 (xs.map BitVec.toNat)

/-- MERGE descriptors as BUF bytes. -/
def table (cs : List (Nat × Nat)) : List Byte := cs.flatMap (fun c => leBytes 4 c.1 ++ leBytes 4 c.2)

/-- The state an outcome holds. -/
def after : Host.Outcome State Fault Refusal → State
  | .next t => t
  | .fault f => nomatch f
  | .refused _ => State.reset

/-- What the host reads from STATUS after a command. -/
def statusAfter (i : Instr) (s : State) : Word := (after (exec i s)).readReg .status

/-- The bytes of BUF after a command. -/
def bytesAfter (i : Instr) (s : State) (a n : Nat) : Option (List Byte) := (after (exec i s)).buf.readBytes a n

/-- The state in which a word has just been issued. -/
def issued (w : Word) : State := State.reset.issue w

/-- The header V-H2: COUNT = 4, NCH = 2, RATE = 44100. -/
def headerH2 : List Byte :=
  [0x52, 0x49, 0x46, 0x46, 0x2c, 0, 0, 0, 0x57, 0x41, 0x56, 0x45, 0x66, 0x6d, 0x74, 0x20, 0x10, 0, 0, 0, 1, 0, 2, 0,
   0x44, 0xac, 0, 0, 0x10, 0xb1, 2, 0, 4, 0, 0x10, 0, 0x64, 0x61, 0x74, 0x61, 8, 0, 0, 0]

/-- 0.25, 0.5, 0.75, -0.25, -0.5, 1.0, 1.5 as 95_test_vectors.md encodes them. -/
def f025 : QWord := 0x3FD0000000000000
def f05 : QWord := 0x3FE0000000000000
def f075 : QWord := 0x3FE8000000000000
def m025 : QWord := 0xBFD0000000000000
def m05 : QWord := 0xBFE0000000000000
def f1 : QWord := 0x3FF0000000000000
def f15 : QWord := 0x3FF8000000000000
def nan : QWord := 0x7FF8000000000000

/-! ### Decoding: RSVD in bits 31:8, OPC in bits 7:0 (R65, R66, R68) -/

theorem test_decode_nop : decode (0x000000#24 ++ 0b00000000#8) = .instr .nop := by decide
theorem test_decode_merge : decode (0x000000#24 ++ 0b00000001#8) = .instr .merge := by decide
theorem test_decode_separate : decode (0x000000#24 ++ 0b00000010#8) = .instr .separate := by decide
theorem test_decode_qenc : decode (0x000000#24 ++ 0b00000011#8) = .instr .qenc := by decide
theorem test_decode_qdec : decode (0x000000#24 ++ 0b00000100#8) = .instr .qdec := by decide
theorem test_decode_hbuild : decode (0x000000#24 ++ 0b00000101#8) = .instr .hbuild := by decide
theorem test_decode_assemble : decode (0x000000#24 ++ 0b00000110#8) = .instr .assemble := by decide
theorem test_decode_hparse : decode (0x000000#24 ++ 0b00000111#8) = .instr .hparse := by decide
theorem test_decode_reserved_opcode : decode (0x000000#24 ++ 0b00001000#8) = .illegal .reservedOpcode := by decide
theorem test_decode_reserved_bits : decode (0x800000#24 ++ 0b00000011#8) = .illegal .reservedBits := by decide
theorem test_decodeTableWord : decodeTableWord 32 3 = some .qenc ∧ decodeTableWord 32 0x100 = none := by decide

/-! ### Well-formedness: the bounds of R7 are refused outside; no command can be ill-formed (R64) -/

theorem test_wf_refuses_small_buf : bufBytesWf 63 = false := by decide
theorem test_wf_refuses_large_buf : bufBytesWf (2 ^ 31 + 1) = false := by decide
theorem test_wf_bounds : bufBytesWf 64 = true ∧ bufBytesWf (2 ^ 31) = true := by decide
theorem test_wf_commands : ∀ i ∈ [Instr.nop, .merge, .separate, .qenc, .qdec, .hbuild, .assemble, .hparse], i.wf = true := by
  decide

/-! ### The commands -/

/-- V-N1, through a step -/
theorem test_nop : (after (step (State.reset.withFetchWord 32 0))).readReg .status = 0x00000002 := by decide

/-- V-C1, V-C4: an illegal word, then NOP keeps STICKY -/
theorem test_illegal_then_nop :
    (after (step (issued 8))).readReg .status = 0x0000030E ∧
    (after (step ((after (step (issued 8))).issue 0))).readReg .status = 0x0000000A := by decide

/-- V-M2: ch0 = [0.25, 0.5, 0.75], ch1 = [-0.25, -0.5] -/
def mergeM2 : State :=
  put (put (put (ops 0x80 0x100 0 2) 0 (reals [f025, f05, f075])) 0x40 (reals [m025, m05])) 0x80
    (table [(0, 3), (0x40, 2)])

theorem test_merge : bytesAfter .merge mergeM2 0x100 32 = some (reals [f025, m025, f05, m05]) ∧
    (after (exec .merge mergeM2)).res0 = 4 ∧ (after (exec .merge mergeM2)).res1 = 2 := by decide +kernel

/-- V-M7: the output meets channel 1 -/
theorem test_merge_overlap : statusAfter .merge { mergeM2 with dst := 0x40 } = 0x0000060E := by decide +kernel

/-- V-S2: five samples of two channels, the fifth unwritten and dropped -/
def separateS2 : State := put (ops 0x100 0x300 5 2) 0x100 (reals [f025, m025, f05, m05])

theorem test_separate : bytesAfter .separate separateS2 0x300 32 = some (reals [f025, f05, m025, m05]) ∧
    (after (exec .separate separateS2)).res0 = 2 ∧ (after (exec .separate separateS2)).res1 = 1 := by decide +kernel

/-- V-S3 -/
theorem test_separate_bad_operand : statusAfter .separate (ops 0 0x100 4 0) = 0x0000040E := by decide

/-- V-Q12 and V-Q5: 1.5 wraps to -16386 (fe bf), 0.5 gives 16383 (ff 3f) -/
theorem test_qenc : bytesAfter .qenc (put (ops 0 0x100 2 2) 0 (reals [f15, f05])) 0x100 4
    = some [0xfe, 0xbf, 0xff, 0x3f] := by decide +kernel

/-- V-Q23: NONFINITE, and the finite sample 0 is not written either -/
theorem test_qenc_nan : statusAfter .qenc (put (ops 0 0x100 2 2) 0 (reals [f05, nan])) = 0x0000070E ∧
    bytesAfter .qenc (put (ops 0 0x100 2 2) 0 (reals [f05, nan])) 0x100 1 = none := by decide +kernel

/-- V-D4 and V-D7: -32768 and 100 -/
theorem test_qdec : bytesAfter .qdec (put (ops 0 0x100 4 2) 0 [0x00, 0x80, 0x64, 0x00]) 0x100 16
    = some [0x80, 0x00, 0x40, 0x00, 0x20, 0x00, 0xf0, 0xbf, 0xc8, 0x00, 0x64, 0x00, 0x32, 0x00, 0x69, 0x3f] := by
  decide +kernel

/-- V-D13: LENGTH comes before RANGE -/
theorem test_qdec_length : statusAfter .qdec (ops 0x5000 0x100 3 2) = 0x0000010E := by decide

/-- V-H2 -/
theorem test_hbuild : bytesAfter .hbuild (ops 0 0x200 4 2) 0x200 44 = some headerH2 := by decide +kernel

/-- V-H16: RANGE comes before FIELD_OVERFLOW -/
theorem test_hbuild_range : statusAfter .hbuild (ops 0 4090 2147483630 2) = 0x0000050E := by decide

/-- V-A1 and V-A5 in one: a header that is none is copied unchanged, then the payload -/
theorem test_assemble : bytesAfter .assemble
    (put (put { ops 0x200 0x300 2 2 with src2 := 0x100 } 0x200 (List.replicate 44 0xaa)) 0x100 [0xff, 0x3f]) 0x300 46
    = some (List.replicate 44 0xaa ++ [0xff, 0x3f]) := by decide +kernel

/-- V-A3: the image meets the header's last byte -/
theorem test_assemble_overlap : statusAfter .assemble (ops 0 43 0 2) = 0x0000060E := by decide

/-- A 52-byte image at 0x300. -/
def parseState : State := put (ops 0x300 0 52 2) 0x300 headerH2

/-- V-P8's header, V-P1's fields: rate, byte rate, bits, data size; the payload's place and length -/
theorem test_hparse :
    (after (exec .hparse parseState)).hdr.toList.drop 6 = [2, 44100, 176400, 4, 16, 0x61746164, 8] ∧
    (after (exec .hparse parseState)).res0 = 0x32C ∧ (after (exec .hparse parseState)).res1 = 8 := by decide +kernel

/-- V-P4 and V-P5: 44 times aa parses with STRICT = 0 and is FORMAT with STRICT = 1 -/
theorem test_hparse_strict :
    statusAfter .hparse (put (ops 0 0 44 2) 0 (List.replicate 44 0xaa)) = 0x00000002 ∧
    statusAfter .hparse { put (ops 0 0 44 2) 0 (List.replicate 44 0xaa) with strict := true } = 0x0000020E := by
  decide +kernel

/-! ### The host port -/

/-- V-R1: reserved bits of CTRL and NCH read as 0; STATUS ignores what is not bit 3 -/
theorem test_reserved_bits :
    (State.reset.hostAccess (.write .reg 0x08 .w4 0xFFFFFFFF)).readReg .ctrl = 0x00000001 ∧
    (State.reset.hostAccess (.write .reg 0x1C .w4 0x00012345)).readReg .nch = 0x00002345 ∧
    (State.reset.hostAccess (.write .reg 0x04 .w4 0xFFFFFFFF)).readReg .status = 0 := by decide

/-- V-F1, V-F2, V-F3 -/
theorem test_host_faults :
    (State.reset.hostAccess (.read .buf 0 .w1)).faults.has .uninitRead = true ∧
    (State.reset.hostAccess (.read .reg 0x34 .w4)).faults.has .busError = true ∧
    (State.reset.hostAccess (.read .reg 0x04 .w2)).faults.has .busError = true ∧
    (State.reset.hostAccess (.write .buf 4092 .w8 0)).faults.has .busError = true := by decide

/-- V-F4 -/
theorem test_hazard :
    ((issued 3).hostAccess (.read .reg 0x24 .w4)).faults.has .hazard = true ∧
    ((issued 3).hostAccess (.write .buf 0 .w1 0)).faults.has .hazard = true ∧
    ((issued 3).hostAccess (.read .reg 0x04 .w4)).returned = some 1 := by decide

/-- V-F5, with an output apart from the input: QENC of an unwritten sample -/
def unwrittenQenc : State := { issued 3 with count := 1, dst := 0x100 }

theorem test_command_fault : (after (engineTurn unwrittenQenc)).faults.has .uninitRead = true ∧
    (after (engineTurn unwrittenQenc)).status.busy = true := by decide

/-- P1's fourth real, as `sf64` writes it: 1.5 -/
theorem test_sf64 : sf64 0x018 false 3 2 = .access (.write .buf 0x018 .w8 0x3FF8000000000000) := by decide +kernel

/-! ### Witnesses: for every statement with hypotheses, a state and operands that meet them

Each theorem lists the hypotheses of one statement, or of each of its clauses, at concrete values; where the values of a
clause are a range, at an end of it. -/

/-- A reset is due while QENC is in flight. -/
theorem witness_ResetEventAbandonsCommand :
    ({ issued 3 with schedule := [.reset, .host] } : State).schedule = .reset :: [.host] := rfl

theorem witness_EveryWordSelectsOneCommandOrIsIllegal :
    decode 0x00000007 = .instr .hparse ∧ rsvd 0x00000100 ≠ 0 ∧ 8 ≤ (opc 0x00000008).toNat ∧
    (issued 8).status.busy = true ∧ decode (issued 8).cmd = .illegal .reservedOpcode ∧
    decode (issued 0x80000000).cmd = .illegal .reservedBits := by decide

/-- The host is about to issue QENC. -/
def issuing : State := { State.reset with program := [wrCmd .qenc] }

/-- The engine's command; the host's access on its own turn and on an empty schedule; a host with nothing left. -/
theorem witness_StepRunsIssuedCommand :
    ((issued 7).status.busy = true ∧ decode (issued 7).cmd = .instr .hparse ∧ Instr.hparse.wf = true ∧
      (issued 7).schedule = [] ∧ ({ issued 7 with schedule := [.engine] } : State).schedule = .engine :: []) ∧
    (issuing.program = .access (.write .reg 0x00 .w4 3) :: [] ∧ issuing.schedule = [] ∧ issuing.status.busy = false ∧
      ({ issuing with schedule := [.host] } : State).schedule = .host :: []) ∧
    (State.reset.program = [] ∧ State.reset.schedule = [] ∧ State.reset.status.busy = false ∧
      ({ issued 7 with schedule := [.host] } : State).schedule = .host :: [] ∧ (issued 7).program = []) := by decide

theorem witness_IllegalWordEndsInIllegalCmd :
    (issued 8).status.busy = true ∧ 8 ≤ (opc (issued 8).cmd).toNat ∧
    (issued 0x100).status.busy = true ∧ rsvd (issued 0x100).cmd ≠ 0 := by decide

theorem witness_CmdWriteIssues : State.reset.status.busy = false ∧ (issued 0).status.busy = true := by decide

/-- SEPARATE of no channels has been issued. -/
def noChannels : State := { issued 2 with nch := 0 }

/-- One state for each of the three ways. -/
theorem witness_EngineTurnEndsInOneOfThreeWays :
    (issued 0).status.busy = true ∧ (after (engineTurn (issued 0))).status.err = false ∧
    noChannels.status.busy = true ∧ engineTurn noChannels = .next (noChannels.withError .badOperand) ∧
    unwrittenQenc.status.busy = true ∧ engineTurn unwrittenQenc = .next unwrittenQenc.withUninitRead :=
  ⟨by decide, by decide, by decide, rfl, by decide, rfl⟩

theorem witness_ModelFaultLeavesEngineStuck :
    unwrittenQenc.status.busy = true ∧ engineTurn unwrittenQenc = .next unwrittenQenc.withUninitRead ∧
    unwrittenQenc.withUninitRead.status.busy = true := ⟨by decide, rfl, by decide⟩

theorem witness_ReissuedCommandReportsSameError :
    (issued 8).status.busy = true ∧ engineTurn (issued 8) = .next ((issued 8).withError .illegalCmd) ∧
    noChannels.status.busy = true ∧ engineTurn noChannels = .next (noChannels.withError .badOperand) :=
  ⟨by decide, rfl, by decide, rfl⟩

theorem witness_StickyRule :
    ((issued 8).status.busy = true ∧ engineTurn (issued 8) = .next ((issued 8).withError .illegalCmd) ∧
      ((issued 8).withError .illegalCmd).status.busy = false) ∧
    ((issued 0).status.busy = true ∧ engineTurn (issued 0) = .next (after (engineTurn (issued 0))) ∧
      (after (engineTurn (issued 0))).status.busy = false) ∧
    State.reset.status.busy = false ∧ (0x8 : QWord).getLsbD 3 = true ∧ (0xFFFFFFF7 : QWord).getLsbD 3 = false :=
  ⟨⟨by decide, rfl, by decide⟩, ⟨by decide, rfl, by decide⟩, by decide⟩

/-- STICKY is 1, and the host is about to write `v` to STATUS. -/
def stickyState (v : Word) : State := { State.reset.withError .range with program := [wr .status v] }

theorem witness_OnlyStatusWriteOrResetClearsSticky :
    (step (stickyState 8) = .next (after (step (stickyState 8))) ∧ (stickyState 8).status.sticky = true ∧
      (after (step (stickyState 8))).status.sticky = false) ∧
    (step { stickyState 0 with schedule := [.reset] } = .next (after (step { stickyState 0 with schedule := [.reset] })) ∧
      (after (step { stickyState 0 with schedule := [.reset] })).status.sticky = false) :=
  ⟨⟨rfl, by decide, by decide⟩, rfl, by decide⟩

theorem witness_OnlyIssueSetsBusyOnlyCompletionClearsIt :
    (step issuing = .next (after (step issuing)) ∧ issuing.status.busy = false ∧
      (after (step issuing)).status.busy = true) ∧
    (step (issued 0) = .next (after (step (issued 0))) ∧ (issued 0).status.busy = true ∧
      (after (step (issued 0))).status.busy = false) ∧
    (step { issued 0 with schedule := [.reset] } = .next (after (step { issued 0 with schedule := [.reset] })) ∧
      (after (step { issued 0 with schedule := [.reset] })).status.busy = false) :=
  ⟨⟨rfl, by decide, by decide⟩, ⟨rfl, by decide, by decide⟩, rfl, by decide⟩

theorem witness_LatchedCommandAndOperandsAreFixedWhileBusy :
    (step (issued 0) = .next (after (step (issued 0))) ∧ (issued 0).status.busy = true ∧
      ∀ rest, (issued 0).schedule ≠ .reset :: rest) ∧
    (step unwrittenQenc = .next unwrittenQenc.withUninitRead ∧ unwrittenQenc.status.busy = true ∧
      (∀ rest, unwrittenQenc.schedule ≠ .reset :: rest) ∧ unwrittenQenc.withUninitRead.status.busy = true) :=
  ⟨⟨rfl, by decide, fun rest => (List.cons_ne_nil Turn.reset rest).symm⟩,
    rfl, by decide, fun rest => (List.cons_ne_nil Turn.reset rest).symm, by decide⟩

theorem witness_FaultRecordOnlyGrows :
    step { unwrittenQenc.withUninitRead with schedule := [.reset] }
      = .next (after (step { unwrittenQenc.withUninitRead with schedule := [.reset] })) ∧
    unwrittenQenc.withUninitRead.faults.has .uninitRead = true := ⟨rfl, by decide⟩

/-- QENC in two states that differ in every operand register it does not read. -/
theorem witness_CommandsReadOnlyTheirOperands :
    SameOperands .qenc unwrittenQenc { unwrittenQenc with src2 := 1, nch := 0, rate := 0, strict := true } ∧
    unwrittenQenc.nch ≠ 0 := ⟨⟨rfl, rfl, rfl⟩, by decide⟩

theorem witness_FrameOfEveryCommand :
    exec .hbuild (ops 0 0x200 4 2) = .next (after (exec .hbuild (ops 0 0x200 4 2))) := rfl

theorem witness_OperandRegisterWrites : State.reset.status.busy = false := rfl

theorem witness_ReadOnlyRegistersIgnoreWrites :
    State.reset.status.busy = false ∧ (∃ k, Reg.hdr 12 = .hdr k) := ⟨rfl, 12, rfl⟩

theorem witness_RegisterReadHasNoSideEffect :
    State.reset.status.busy = false ∧ (issued 0).status.busy = true ∧ Reg.bufsize ∈ readableWhileBusy := by decide

/-- The ends of the unassigned ranges, a misaligned offset, and the other widths. -/
theorem witness_IllegalRegAccessIsBusError :
    State.reset.status.busy = false ∧ Width.w2 ≠ .w4 ∧ 0x01 % 4 ≠ 0 ∧
    (∀ off ∈ [0x34, 0x38, 0x3C, 0x74, 0xFC, 0x100], off = 0x34 ∨ off = 0x38 ∨ off = 0x3C ∨ 0x74 ≤ off) := by decide

/-- The first address at which each width no longer fits; the reads at the last three also cover an unwritten byte inside BUF
(log 15). -/
theorem witness_BufAccessOutsideIsBusError :
    State.reset.status.busy = false ∧ State.reset.bufBytes < 4096 + Width.w1.bytes ∧
    State.reset.bufBytes < 4095 + Width.w2.bytes ∧ State.reset.bufBytes < 4093 + Width.w4.bytes ∧
    State.reset.bufBytes < 4089 + Width.w8.bytes := by decide

/-- The last address at which the widest access fits. -/
theorem witness_BufWriteReadsBackLittleEndian :
    State.reset.status.busy = false ∧ 4088 + Width.w8.bytes ≤ State.reset.bufBytes := by decide

theorem witness_UnwrittenHostReadIsUninitRead :
    State.reset.status.busy = false ∧ 4095 + Width.w1.bytes ≤ State.reset.bufBytes ∧
    ∃ k < Width.w1.bytes, State.reset.buf.read (4095 + k) = none := by decide

/-- A register write, a read of RES0, a BUF write, a BUF read of an unwritten byte, each allowed but for BUSY; and an access
that R49, and one that R50, forbids as well. -/
theorem witness_AccessWhileBusyIsHazard :
    (issued 0).status.busy = true ∧
    (∀ a ∈ [Access.write .reg 0x0C .w4 0, .read .reg 0x24 .w4, .write .buf 4095 .w1 0, .read .buf 4095 .w1],
      (issued 0).forbids a = false ∧ ∀ r ∈ readableWhileBusy, a ≠ .read .reg r.offset .w4) ∧
    (∀ a ∈ [Access.read .reg 0x34 .w4, .read .buf 4096 .w1],
      (issued 0).forbids a = true ∧ ∀ r ∈ readableWhileBusy, a ≠ .read .reg r.offset .w4) := by decide

theorem witness_WaitPollsUntilNotBusy :
    ({ issued 0 with program := [.wait], schedule := [.host] } : State).program = .wait :: [] ∧
    ({ issued 0 with program := [.wait], schedule := [.host] } : State).status.busy = true ∧
    ({ issued 0 with program := [.wait], schedule := [.host] } : State).schedule = .host :: [] ∧
    ({ State.reset with program := [.wait] } : State).status.busy = false ∧
    ({ State.reset with program := [.wait] } : State).schedule = [] ∧
    ({ State.reset with program := [.wait], schedule := [.host] } : State).schedule = .host :: [] := by decide

theorem witness_MergeOfNoChannelsIsEmpty : (ops 0x5000 0 0 0).nchVal = 0 := by decide

/-- The two channels of `mergeM2`. -/
def base2 (c : Nat) : Nat := if c = 0 then 0 else 0x40
def len2 (c : Nat) : Nat := if c = 0 then 3 else 2

theorem witness_MergeInterleavesChannels :
    0 < mergeM2.nchVal ∧ DescriptorsAre mergeM2 base2 len2 ∧
    (∀ c < mergeM2.nchVal, mergeM2.inBuf (base2 c) (8 * len2 c)) ∧ IsShortest mergeM2.nchVal len2 2 ∧
    mergeM2.inBuf mergeM2.dstVal (8 * mergeM2.nchVal * 2) ∧
    ¬ overlaps mergeM2.dstVal (8 * mergeM2.nchVal * 2) mergeM2.srcVal (8 * mergeM2.nchVal) ∧
    (∀ c < mergeM2.nchVal, ¬ overlaps mergeM2.dstVal (8 * mergeM2.nchVal * 2) (base2 c) (8 * len2 c)) ∧
    (∀ c < mergeM2.nchVal, mergeM2.written (base2 c) (8 * 2)) := by
  unfold DescriptorsAre IsShortest State.written
  decide +kernel

/-- The hypotheses of MERGE's order up to the channel ranges. -/
def Described (s : State) (base len : Nat → Nat) (L : Nat) : Prop :=
  0 < s.nchVal ∧ DescriptorsAre s base len ∧ IsShortest s.nchVal len L

/-- The first SRC at which the table no longer fits; the last at which it does, with nothing written; a channel one byte
beyond BUF; the first DST at which the output no longer fits; the last byte of the table, and V-M7's channel, met; an unwritten
sample. -/
theorem witness_MergeOrderOfChecks :
    (∃ s : State, 0 < s.nchVal ∧ ¬ s.inBuf s.srcVal (8 * s.nchVal)) ∧
    (∃ s : State, 0 < s.nchVal ∧ s.inBuf s.srcVal (8 * s.nchVal) ∧ ¬ s.written s.srcVal (8 * s.nchVal)) ∧
    (∃ s : State, Described s (fun _ => 4089) (fun _ => 1) 1 ∧ ∃ c < s.nchVal, ¬ s.inBuf 4089 (8 * 1)) ∧
    (∃ s : State, Described s base2 len2 2 ∧ (∀ c < s.nchVal, s.inBuf (base2 c) (8 * len2 c)) ∧
      ¬ s.inBuf s.dstVal (8 * s.nchVal * 2)) ∧
    (∃ s : State, Described s base2 len2 2 ∧ (∀ c < s.nchVal, s.inBuf (base2 c) (8 * len2 c)) ∧
      s.inBuf s.dstVal (8 * s.nchVal * 2) ∧ overlaps s.dstVal (8 * s.nchVal * 2) s.srcVal (8 * s.nchVal)) ∧
    (∃ s : State, Described s base2 len2 2 ∧ (∀ c < s.nchVal, s.inBuf (base2 c) (8 * len2 c)) ∧
      s.inBuf s.dstVal (8 * s.nchVal * 2) ∧
      ∃ c < s.nchVal, overlaps s.dstVal (8 * s.nchVal * 2) (base2 c) (8 * len2 c)) ∧
    (∃ s : State, Described s (fun _ => 0) (fun _ => 1) 1 ∧ (∀ c < s.nchVal, s.inBuf 0 (8 * 1)) ∧
      s.inBuf s.dstVal (8 * s.nchVal * 1) ∧ ¬ overlaps s.dstVal (8 * s.nchVal * 1) s.srcVal (8 * s.nchVal) ∧
      (∀ c < s.nchVal, ¬ overlaps s.dstVal (8 * s.nchVal * 1) 0 (8 * 1)) ∧
      ∃ c < s.nchVal, ¬ s.written 0 (8 * 1)) := by
  unfold Described DescriptorsAre IsShortest State.written
  exact ⟨⟨ops 4081 0 0 2, by decide⟩, ⟨ops 4080 0 0 2, by decide⟩,
    ⟨put (ops 0x80 0 0 1) 0x80 (table [(4089, 1)]), by decide +kernel⟩, ⟨{ mergeM2 with dst := 4065 }, by decide +kernel⟩,
    ⟨{ mergeM2 with dst := 0x8F }, by decide +kernel⟩, ⟨{ mergeM2 with dst := 0x40 }, by decide +kernel⟩,
    ⟨put (ops 0x80 0x100 0 1) 0x80 (table [(0, 1)]), by decide +kernel⟩⟩

theorem witness_SeparateSplitsChannels :
    0 < separateS2.nchVal ∧ separateS2.inBuf separateS2.srcVal (8 * separateS2.countVal) ∧
    separateS2.inBuf separateS2.dstVal (8 * separateS2.nchVal * (separateS2.countVal / separateS2.nchVal)) ∧
    ¬ overlaps separateS2.dstVal (8 * separateS2.nchVal * (separateS2.countVal / separateS2.nchVal)) separateS2.srcVal
      (8 * separateS2.countVal) ∧
    separateS2.written separateS2.srcVal (8 * (separateS2.nchVal * (separateS2.countVal / separateS2.nchVal))) := by
  unfold State.written
  decide +kernel

/-- NCH = 0; the first SRC and the first DST that no longer fit; the last DST that meets the input; nothing written. -/
theorem witness_SeparateOrderOfChecks :
    (∃ s : State, s.nchVal = 0) ∧
    (∃ s : State, 0 < s.nchVal ∧ ¬ s.inBuf s.srcVal (8 * s.countVal)) ∧
    (∃ s : State, 0 < s.nchVal ∧ s.inBuf s.srcVal (8 * s.countVal) ∧
      ¬ s.inBuf s.dstVal (8 * s.nchVal * (s.countVal / s.nchVal))) ∧
    (∃ s : State, 0 < s.nchVal ∧ s.inBuf s.srcVal (8 * s.countVal) ∧
      s.inBuf s.dstVal (8 * s.nchVal * (s.countVal / s.nchVal)) ∧
      overlaps s.dstVal (8 * s.nchVal * (s.countVal / s.nchVal)) s.srcVal (8 * s.countVal)) ∧
    (∃ s : State, 0 < s.nchVal ∧ s.inBuf s.srcVal (8 * s.countVal) ∧
      s.inBuf s.dstVal (8 * s.nchVal * (s.countVal / s.nchVal)) ∧
      ¬ overlaps s.dstVal (8 * s.nchVal * (s.countVal / s.nchVal)) s.srcVal (8 * s.countVal) ∧
      ¬ s.written s.srcVal (8 * (s.nchVal * (s.countVal / s.nchVal)))) := by
  unfold State.written
  exact ⟨⟨ops 0 0x100 4 0, by decide⟩, ⟨ops 4065 0 4 2, by decide⟩, ⟨ops 0 4065 4 2, by decide⟩,
    ⟨ops 0 31 4 2, by decide⟩, ⟨ops 0 32 4 2, by decide⟩⟩

/-- `mergeM2`, which meets MERGE's hypotheses (`witness_MergeInterleavesChannels`), with the second output right behind the
first. -/
theorem witness_SeparateInvertsMerge :
    mergeM2.inBuf (0x120 : Word).toNat (8 * mergeM2.nchVal * 2) ∧
    ¬ overlaps (0x120 : Word).toNat (8 * mergeM2.nchVal * 2) mergeM2.dstVal (8 * mergeM2.nchVal * 2) := by decide +kernel

/-- `(1 + 2^-52) * 1.5 = 1.5 + 1.5 * 2^-52` lies halfway between two neighbours; the even one is `1.5 + 2 * 2^-52`. -/
theorem test_mulRne_tie : mulRne 0x3FF0000000000001 f15 = 0x3FF8000000000002 := by decide +kernel

/-- That product, against the other neighbour. -/
theorem witness_ProductIsNearest :
    isFinite 0x3FF0000000000001 = true ∧ isFinite f15 = true ∧ isFinite 0x3FF8000000000001 = true ∧
    isFinite (mulRne 0x3FF0000000000001 f15) = true ∧
    realValue 0x3FF8000000000001 ≠ realValue (mulRne 0x3FF0000000000001 f15) ∧
    |realValue 0x3FF8000000000001 - realValue 0x3FF0000000000001 * realValue f15|
      = |realValue (mulRne 0x3FF0000000000001 f15) - realValue 0x3FF0000000000001 * realValue f15| := by
  refine ⟨by decide, by decide, by decide, by decide +kernel, ?_⟩
  have v (b : QWord) (m : ℕ) (e : ℤ) (h1 : signBit b = false) (h2 : mant b = m) (h3 : expo b = e) :
      realValue b = m * (2 : ℚ) ^ e := by rw [realValue, h1, h2, h3]; simp
  rw [test_mulRne_tie, v 0x3FF8000000000001 (2 ^ 52 + 2 ^ 51 + 1) (-52) (by decide) (by decide) (by decide),
    v 0x3FF8000000000002 (2 ^ 52 + 2 ^ 51 + 2) (-52) (by decide) (by decide) (by decide),
    v 0x3FF0000000000001 (2 ^ 52 + 1) (-52) (by decide) (by decide) (by decide),
    v f15 (2 ^ 52 + 2 ^ 51) (-52) (by decide) (by decide) (by decide)]
  norm_num

/-- The largest subnormal. -/
theorem witness_SubnormalsQuantizeToZero : expField 0x000FFFFFFFFFFFFF = 0 := by decide

/-- 1.0 -/
theorem witness_QuantizationErrorBelowOneStep : isFinite f1 = true ∧ |realValue f1| ≤ 1 := by
  refine ⟨by decide, ?_⟩
  have h1 : signBit f1 = false := by decide
  have h2 : mant f1 = 2 ^ 52 := by decide
  have h3 : expo f1 = -52 := by decide
  rw [realValue, h1, h2, h3]
  norm_num

/-- V-Q30's two adjacent ranges, with one sample 0.5. -/
theorem witness_QencWritesPayload :
    ∃ s : State, s.inBuf s.srcVal (8 * s.countVal) ∧ s.inBuf s.dstVal (2 * s.countVal) ∧
      ¬ overlaps s.dstVal (2 * s.countVal) s.srcVal (8 * s.countVal) ∧
      (∀ k < s.countVal, s.buf.memRead (s.srcVal + 8 * k) 8 = some f05.toNat) ∧
      (∀ k < s.countVal, quantize f05 = some 0x3FFF) ∧ 0 < s.countVal :=
  ⟨put (ops 0 8 1 2) 0 (reals [f05]), by decide +kernel⟩

/-- The first SRC and DST that no longer fit; the last DST that meets the input (V-Q29); nothing written; V-Q23. -/
theorem witness_QencOrderOfChecks :
    (∃ s : State, ¬ s.inBuf s.srcVal (8 * s.countVal)) ∧
    (∃ s : State, s.inBuf s.srcVal (8 * s.countVal) ∧ ¬ s.inBuf s.dstVal (2 * s.countVal)) ∧
    (∃ s : State, s.inBuf s.srcVal (8 * s.countVal) ∧ s.inBuf s.dstVal (2 * s.countVal) ∧
      overlaps s.dstVal (2 * s.countVal) s.srcVal (8 * s.countVal)) ∧
    (∃ s : State, s.inBuf s.srcVal (8 * s.countVal) ∧ s.inBuf s.dstVal (2 * s.countVal) ∧
      ¬ overlaps s.dstVal (2 * s.countVal) s.srcVal (8 * s.countVal) ∧ ¬ s.written s.srcVal (8 * s.countVal)) ∧
    (∃ s : State, s.inBuf s.srcVal (8 * s.countVal) ∧ s.inBuf s.dstVal (2 * s.countVal) ∧
      ¬ overlaps s.dstVal (2 * s.countVal) s.srcVal (8 * s.countVal) ∧
      (∀ k < s.countVal, s.buf.memRead (s.srcVal + 8 * k) 8 = some (if k = 0 then f05 else nan).toNat) ∧
      ∃ k < s.countVal, quantize (if k = 0 then f05 else nan) = none) := by
  unfold State.written
  exact ⟨⟨ops 4089 0 1 2, by decide⟩, ⟨ops 0 4095 1 2, by decide⟩, ⟨ops 0 7 1 2, by decide⟩, ⟨ops 0 8 1 2, by decide⟩,
    ⟨put (ops 0 16 2 2) 0 (reals [f05, nan]), by decide +kernel⟩⟩

/-- The last SRC that fits and, right before it, the output. -/
theorem witness_QdecWritesSamples :
    ∃ s : State, s.countVal % 2 = 0 ∧ s.inBuf s.srcVal s.countVal ∧ s.inBuf s.dstVal (8 * (s.countVal / 2)) ∧
      ¬ overlaps s.dstVal (8 * (s.countVal / 2)) s.srcVal s.countVal ∧
      (∀ k < s.countVal / 2, s.buf.memRead (s.srcVal + 2 * k) 2 = some (0x8000 : Pcm).toNat) ∧ 0 < s.countVal :=
  ⟨put (ops 4094 4086 2 2) 4094 [0x00, 0x80], by decide +kernel⟩

/-- An odd COUNT; the first SRC and DST that no longer fit; the last DST that meets the input; nothing written. -/
theorem witness_QdecOrderOfChecks :
    (∃ s : State, s.countVal % 2 = 1) ∧
    (∃ s : State, s.countVal % 2 = 0 ∧ ¬ s.inBuf s.srcVal s.countVal) ∧
    (∃ s : State, s.countVal % 2 = 0 ∧ s.inBuf s.srcVal s.countVal ∧ ¬ s.inBuf s.dstVal (8 * (s.countVal / 2))) ∧
    (∃ s : State, s.countVal % 2 = 0 ∧ s.inBuf s.srcVal s.countVal ∧ s.inBuf s.dstVal (8 * (s.countVal / 2)) ∧
      overlaps s.dstVal (8 * (s.countVal / 2)) s.srcVal s.countVal) ∧
    (∃ s : State, s.countVal % 2 = 0 ∧ s.inBuf s.srcVal s.countVal ∧ s.inBuf s.dstVal (8 * (s.countVal / 2)) ∧
      ¬ overlaps s.dstVal (8 * (s.countVal / 2)) s.srcVal s.countVal ∧ ¬ s.written s.srcVal s.countVal) := by
  unfold State.written
  exact ⟨⟨ops 0 0x100 3 2, by decide⟩, ⟨ops 4095 0 2 2, by decide⟩, ⟨ops 0 4089 2 2, by decide⟩, ⟨ops 0 1 2 2, by decide⟩,
    ⟨ops 0 2 2 2, by decide⟩⟩

/-- The largest COUNT, NCH and RATE (V-H8, V-H9, V-H10), each at the last DST (V-H15). -/
theorem witness_HbuildWritesHeader :
    ∀ s ∈ [{ ops 0 4052 2147483629 1 with rate := 8000 }, { ops 0 4052 0 32767 with rate := 1 },
        { ops 0 4052 0 2 with rate := 0x3FFFFFFF }],
      s.inBuf s.dstVal 44 ∧ s.countVal ≤ 2147483629 ∧ s.nchVal ≤ 32767 ∧ s.rateVal * (2 * s.nchVal) ≤ 4294967295 := by
  decide

/-- V-H14, V-H11, V-H12, V-H13. -/
theorem witness_HbuildOrderOfChecks :
    (∃ s : State, ¬ s.inBuf s.dstVal 44) ∧ (∃ s : State, s.inBuf s.dstVal 44 ∧ 2147483629 < s.countVal) ∧
    (∃ s : State, s.inBuf s.dstVal 44 ∧ 32767 < s.nchVal) ∧
    (∃ s : State, s.inBuf s.dstVal 44 ∧ 4294967295 < s.rateVal * (2 * s.nchVal)) :=
  ⟨⟨ops 0 4053 0 2, by decide⟩, ⟨ops 0 0 2147483630 2, by decide⟩, ⟨ops 0 0 0 32768, by decide⟩,
    ⟨{ ops 0 0 0 2 with rate := 0x40000000 }, by decide⟩⟩

/-- A header at 0, two payload bytes right behind it, and the image at the last DST that fits. -/
def assembleState : State := { put (ops 0 4050 2 2) 0 (List.replicate 46 0xaa) with src2 := 44 }

theorem witness_AssembleConcatenates :
    assembleState.inBuf assembleState.srcVal 44 ∧ assembleState.inBuf assembleState.src2Val assembleState.countVal ∧
    assembleState.inBuf assembleState.dstVal (44 + assembleState.countVal) ∧
    ¬ overlaps assembleState.dstVal (44 + assembleState.countVal) assembleState.srcVal 44 ∧
    ¬ overlaps assembleState.dstVal (44 + assembleState.countVal) assembleState.src2Val assembleState.countVal ∧
    assembleState.written assembleState.srcVal 44 ∧
    assembleState.written assembleState.src2Val assembleState.countVal := by
  unfold State.written
  decide +kernel

/-- Each range at its first misfit; the last DST that meets the header (V-A3), and one that meets the payload alone; a payload
that is not written. -/
theorem witness_AssembleOrderOfChecks :
    (∃ s : State, ¬ s.inBuf s.srcVal 44) ∧ (∃ s : State, ¬ s.inBuf s.src2Val s.countVal) ∧
    (∃ s : State, ¬ s.inBuf s.dstVal (44 + s.countVal)) ∧
    (∃ s : State, s.inBuf s.srcVal 44 ∧ s.inBuf s.src2Val s.countVal ∧ s.inBuf s.dstVal (44 + s.countVal) ∧
      overlaps s.dstVal (44 + s.countVal) s.srcVal 44) ∧
    (∃ s : State, s.inBuf s.srcVal 44 ∧ s.inBuf s.src2Val s.countVal ∧ s.inBuf s.dstVal (44 + s.countVal) ∧
      ¬ overlaps s.dstVal (44 + s.countVal) s.srcVal 44 ∧ overlaps s.dstVal (44 + s.countVal) s.src2Val s.countVal) ∧
    (∃ s : State, s.inBuf s.srcVal 44 ∧ s.inBuf s.src2Val s.countVal ∧ s.inBuf s.dstVal (44 + s.countVal) ∧
      ¬ overlaps s.dstVal (44 + s.countVal) s.srcVal 44 ∧ ¬ overlaps s.dstVal (44 + s.countVal) s.src2Val s.countVal ∧
      s.written s.srcVal 44 ∧ ¬ s.written s.src2Val s.countVal) := by
  unfold State.written
  exact ⟨⟨ops 4053 0 2 2, by decide⟩, ⟨{ ops 0 0 2 2 with src2 := 4095 }, by decide⟩, ⟨ops 0 4051 2 2, by decide⟩,
    ⟨ops 0 43 2 2, by decide⟩, ⟨{ ops 0 44 2 2 with src2 := 89 }, by decide⟩,
    ⟨{ put (ops 0 44 2 2) 0 headerH2 with src2 := 90 }, by decide +kernel⟩⟩

/-- An image of 44 bytes at the last SRC, with STRICT = 1 (so for STRICT = 0 as well). -/
theorem witness_HparseReadsHeaderFields :
    ∃ s : State, 44 ≤ s.countVal ∧ s.inBuf s.srcVal s.countVal ∧ s.written s.srcVal 44 ∧ s.strict = true ∧
      TagsAt s.buf s.srcVal := by
  unfold State.written TagsAt
  exact ⟨{ put (ops 4052 0 44 2) 4052 headerH2 with strict := true }, by decide +kernel⟩

/-- V-P2; the first SRC that does not fit; the last that fits, with nothing written; V-P5. -/
theorem witness_HparseOrderOfChecks :
    (∃ s : State, s.countVal < 44) ∧ (∃ s : State, 44 ≤ s.countVal ∧ ¬ s.inBuf s.srcVal s.countVal) ∧
    (∃ s : State, 44 ≤ s.countVal ∧ s.inBuf s.srcVal s.countVal ∧ ¬ s.written s.srcVal 44) ∧
    (∃ s : State, 44 ≤ s.countVal ∧ s.inBuf s.srcVal s.countVal ∧ s.written s.srcVal 44 ∧ s.strict = true ∧
      ¬ TagsAt s.buf s.srcVal) := by
  unfold State.written TagsAt
  exact ⟨⟨ops 0 0 43 2, by decide⟩, ⟨ops 4053 0 44 2, by decide⟩, ⟨ops 4052 0 44 2, by decide⟩,
    ⟨{ put (ops 0 0 44 2) 0 (List.replicate 44 0xaa) with strict := true }, by decide +kernel⟩⟩

/-- Header, a written payload of two bytes and the image, one right behind the other. -/
theorem witness_HeaderRoundTrip :
    ∃ (s : State) (d p d' n : Word), s.countVal ≤ 2147483629 ∧ s.nchVal ≤ 32767 ∧
      s.rateVal * (2 * s.nchVal) ≤ 4294967295 ∧ s.inBuf d.toNat 44 ∧ s.inBuf p.toNat n.toNat ∧
      s.inBuf d'.toNat (44 + n.toNat) ∧ ¬ overlaps d'.toNat (44 + n.toNat) d.toNat 44 ∧
      ¬ overlaps d'.toNat (44 + n.toNat) p.toNat n.toNat ∧ s.written p.toNat n.toNat ∧ 0 < n.toNat := by
  unfold State.written
  exact ⟨put (ops 0 0 4 2) 44 [0xff, 0x7f], 0, 44, 46, 2, by decide +kernel⟩

theorem witness_ResetMeetsInvariant :
    bufBytesWf (64 : Word).toNat = true ∧ bufBytesWf (0x80000000 : Word).toNat = true := by decide

/-- `issuing` meets the invariant, and a step from it gives a next state. -/
theorem witness_StepKeepsInvariant : issuing.Inv ∧ step issuing = .next (after (step issuing)) :=
  ⟨{ buf_wf := by decide
     buf_inside := by decide
     size_ok := by decide
     status_ok := ⟨by decide, by decide, by decide⟩
     hdr_ok := by unfold HdrZeroExtended; decide }, rfl⟩

end Sys2Proof.Tests
end

section
/-! The host's register writes while BUSY = 0, and STICKY across the engine's completions, host writes and reset
(R25, R36). -/

namespace Sys2Proof.Machine

/-! ### Register writes while BUSY = 0 -/

/-- A legal register write (R49): the one rule for a 4-byte write at a register's own offset. -/
theorem hostAccess_writeReg_idle {s : State} (hidle : s.status.busy = false) (r : Reg) (v : QWord) :
    s.hostAccess (.write .reg r.offset .w4 v) = { s.writeReg r (v.setWidth 32) with returned := none } := by
  simp [State.hostAccess, State.hostWriteReg, hidle]

/-- Bit 3 of the register's 32-bit value is bit 3 of the 64-bit transaction data. -/
theorem Status.hostWrite_setWidth (st : Status) (v : QWord) :
    st.hostWrite (v.setWidth 32) = { st with sticky := st.sticky && !v.getLsbD 3 } := by
  simp [Status.hostWrite]

theorem hostAccess_writeCmd_idle {s : State} (hidle : s.status.busy = false) (v : QWord) :
    s.hostAccess (.write .reg 0x00 .w4 v) = { s.issue (v.setWidth 32) with returned := none } :=
  hostAccess_writeReg_idle hidle .cmd v

theorem hostAccess_writeStatus_idle {s : State} (hidle : s.status.busy = false) (v : QWord) :
    s.hostAccess (.write .reg 0x04 .w4 v) =
      { s with status := { s.status with sticky := s.status.sticky && !v.getLsbD 3 }, returned := none } := by
  rw [← Status.hostWrite_setWidth]
  exact hostAccess_writeReg_idle hidle .status v

/-- The registers R36 names as read-only, STATUS apart. -/
theorem writeReg_readOnly (s : State) {r : Reg} (v : Word)
    (hr : r = .res0 ∨ r = .res1 ∨ r = .caps ∨ r = .bufsize ∨ ∃ k, r = .hdr k) : s.writeReg r v = s := by
  obtain rfl | rfl | rfl | rfl | ⟨k, rfl⟩ := hr <;> rfl

/-- Settles O20: a write at a register's offset is `writeReg`, which ignores the read-only registers and gives STATUS's
bit 3 to STICKY. -/
theorem readOnlyRegistersIgnoreWrites : Obligations.ReadOnlyRegistersIgnoreWrites := by
  refine ⟨fun s r v hidle hr => ?_, fun s v hidle => hostAccess_writeStatus_idle hidle v⟩
  rw [hostAccess_writeReg_idle hidle, writeReg_readOnly s _ hr]

/-! ### STICKY -/

/-- A command that ends (BUSY = 0 afterwards) sets STICKY exactly if it ended with a device error; a model fault leaves
BUSY = 1 and so is no end (R95). -/
theorem finish_sticky {s : State} {res : CmdResult} (hbusy : s.status.busy = true)
    (hend : (s.finish res).status.busy = false) :
    (s.finish res).status.sticky = ((s.finish res).status.err || s.status.sticky) := by
  cases res with
  | complete e => simp
  | error c => simp
  | modelFault k => simp [hbusy] at hend

/-- The engine's turn is `finish`, so its completion follows `finish_sticky`. -/
theorem engineTurn_sticky {s t : State} (hbusy : s.status.busy = true) (hturn : engineTurn s = .next t)
    (hend : t.status.busy = false) : t.status.sticky = (t.status.err || s.status.sticky) := by
  rw [engineTurn_busy hbusy] at hturn
  cases hturn
  exact finish_sticky hbusy hend

/-- Settles O12: one clause for the engine's completion, one for issue, two for a write of STATUS, one for reset. -/
theorem stickyRule : Obligations.StickyRule := by
  refine ⟨fun s t => engineTurn_sticky, fun s v hidle => ?issue, fun s v hidle hbit => ?clear,
    fun s v hidle hbit => ?keep, fun s => rfl⟩
  case issue => simp [hostAccess_writeCmd_idle hidle]
  case clear => simp only [hostAccess_writeStatus_idle hidle, hbit, Bool.not_true, Bool.and_false]
  case keep => simp only [hostAccess_writeStatus_idle hidle, hbit, Bool.not_false, Bool.and_true]

end Sys2Proof.Machine
end

section
/-! The command word: the decoder and the encoder are inverse to each other, the illegal words, and how one completes
(R65 to R68). -/

namespace Sys2Proof

/-! ### The two fields of a command word (R65) -/

/-- RSVD and OPC together are all 32 bits. -/
theorem rsvd_append_opc (w : Word) : (rsvd w ++ opc w : BitVec (24 + 8)) = w :=
  BitVec.extractLsb'_append_extractLsb'

@[simp] theorem rsvd_encode (i : Instr) : rsvd (encode i) = 0 := by
  cases i <;> rfl

@[simp] theorem opc_encode (i : Instr) : opc (encode i) = opcodeOf i := by
  cases i <;> rfl

/-! ### The opcode map (R66) -/

/-- Each opcode stands in one row of the map: the value matched in that row is the command's opcode. -/
theorem decodeOpc_eq_instr_iff (o : BitVec 8) (i : Instr) : decodeOpc o = .instr i ↔ o = opcodeOf i := by
  constructor
  · intro h
    unfold decodeOpc at h
    split at h
    case h_9 => cases h
    all_goals
      rename_i hrow
      cases h
      exact BitVec.eq_of_toNat_eq hrow
  · rintro rfl
    cases i <;> rfl

/-- Only the map's last row answers an illegal word, and the rows before it match 0 to 7. -/
theorem decodeOpc_illegal_iff (o : BitVec 8) : (∃ why, decodeOpc o = .illegal why) ↔ 8 ≤ o.toNat := by
  unfold decodeOpc
  split
  case h_9 =>
    exact iff_of_true ⟨_, rfl⟩ (by grind)
  all_goals
    rename_i hrow
    simp [hrow]

/-! ### The decoder (R67, R68) -/

theorem decode_of_rsvd_zero {w : Word} (h : rsvd w = 0) : decode w = decodeOpc (opc w) :=
  if_neg (not_not_intro h)

theorem decode_of_rsvd_ne_zero {w : Word} (h : rsvd w ≠ 0) : decode w = .illegal .reservedBits :=
  if_pos h

@[simp] theorem decode_encode (i : Instr) : decode (encode i) = .instr i := by
  rw [decode_of_rsvd_zero (rsvd_encode i), opc_encode, decodeOpc_eq_instr_iff]

/-- A word that selects a command has RSVD = 0 and that command's opcode, and its two fields make up the word. -/
theorem eq_encode_of_decode {w : Word} {i : Instr} (h : decode w = .instr i) : w = encode i := by
  by_cases hr : rsvd w = 0
  · rw [decode_of_rsvd_zero hr, decodeOpc_eq_instr_iff] at h
    calc w = (rsvd w ++ opc w : BitVec (24 + 8)) := (rsvd_append_opc w).symm
      _ = encode i := by rw [hr, h]; rfl
  · rw [decode_of_rsvd_ne_zero hr] at h
    cases h

theorem decode_illegal_iff (w : Word) :
    (∃ why, decode w = .illegal why) ↔ (rsvd w ≠ 0 ∨ 8 ≤ (opc w).toNat) := by
  by_cases hr : rsvd w = 0
  · simp [decode_of_rsvd_zero hr, decodeOpc_illegal_iff, hr]
  · exact ⟨fun _ => .inl hr, fun _ => ⟨_, decode_of_rsvd_ne_zero hr⟩⟩

end Sys2Proof

namespace Sys2Proof.Machine

/-! ### The completion of an illegal word (R68) -/

theorem engineTurn_illegal {s : State} {why : IllegalWord} (hbusy : s.status.busy = true)
    (hill : decode s.cmd = .illegal why) : engineTurn s = .next (s.withError .illegalCmd) := by
  have hres : engineResult s = .error .illegalCmd := by simp [engineResult, hill]
  rw [engineTurn_busy hbusy, hres]
  rfl

/-- ERRCODE is bits 11:8 of STATUS (R21). -/
theorem readReg_status_errcode (s : State) : (s.readReg .status).extractLsb' 8 4 = s.status.errcode.code := by
  show BitVec.extractLsb' 8 4 (_ ++ _ : BitVec (20 + 4 + 4 + 1 + 1 + 1 + 1)) = _
  iterate 5 rw [BitVec.extractLsb'_append_eq_of_le (by decide)]
  exact BitVec.extractLsb'_append_eq_right

/-- Settles O4: `decode_encode` and `eq_encode_of_decode` for the commands, `decode_illegal_iff` for the other words, and
the engine's completion of one. -/
theorem everyWordSelectsOneCommandOrIsIllegal : Obligations.EveryWordSelectsOneCommandOrIsIllegal :=
  ⟨fun i _ => decode_encode i, fun _ _ => eq_encode_of_decode, decode_illegal_iff, by decide,
    fun _ _ => engineTurn_illegal⟩

/-- Settles O6: R68's two kinds of word are the illegal ones, and the error's code stands in ERRCODE. -/
theorem illegalWordEndsInIllegalCmd : Obligations.IllegalWordEndsInIllegalCmd := by
  intro s hbusy hword
  obtain ⟨why, hill⟩ := (decode_illegal_iff s.cmd).mpr hword
  exact ⟨engineTurn_illegal hbusy hill, readReg_status_errcode _⟩

end Sys2Proof.Machine
end

section
/-! MERGE and SEPARATE where no check fails: the completion of each, and SEPARATE as the inverse of MERGE (R78 to R80). -/

namespace Sys2Proof.Machine

/-! ### Copying elements -/

/-- Elements read at a list of addresses and stored as an array stand there in the list's order (R48): both commands are
such a copy, each with its own list. -/
theorem Memory.memRead_copied {m : Memory} {w d i a : Nat} {as vs : List Nat} (hread : m.readAll w as = some vs)
    (ha : as[i]? = some a) :
    ∃ v, m.memRead a w = some v ∧ (m.writeBytes d (arrayBytes w vs)).memRead (d + w * i) w = some v := by
  obtain ⟨hi, rfl⟩ := List.getElem?_eq_some_iff.mp ha
  have hi' : i < vs.length := by rwa [Memory.readAll_length hread]
  have hv := Memory.readAll_getElem hread hi
  refine ⟨vs[i], hv, ?_⟩
  rw [Memory.memRead_arrayBytes m d w vs hi', Nat.mod_eq_of_lt (Memory.memRead_lt hv)]

/-- Every byte of what a command stores is written afterwards (R58). -/
theorem State.complete_written (s : State) (e : Effect) : (s.complete e).written e.dst e.bytes.length := by
  intro k hk
  rw [State.complete_buf, Memory.read_writeBytes_at _ _ _ hk]
  rfl

/-- Element `k` of a written array of 8-byte elements can be read. -/
theorem State.written.memRead_elem {s : State} {a n k : Nat} (h : s.written a (8 * n)) (hk : k < n) :
    (s.buf.memRead (a + 8 * k) 8).isSome :=
  Memory.memRead_isSome.mpr fun j hj => by
    rw [Nat.add_assoc]
    exact h (8 * k + j) (by omega)

/-- BUF holds fewer elements than a register can count. -/
theorem State.inBuf_elems_lt {s : State} {a n : Nat} (h : s.inBuf a (8 * n)) : n < 2 ^ 32 := by
  have hsize : s.bufBytes < 2 ^ 32 := s.bufSize.isLt
  rcases h with h | h <;> omega

/-! ### MERGE -/

/-- The channels of a table of `n` descriptors (R73). -/
abbrev channelTable (base len : Nat → Nat) (n : Nat) : List Channel :=
  (List.range n).map (fun c => (base c, len c))

theorem mem_channelTable {base len : Nat → Nat} {n : Nat} {ch : Channel} :
    ch ∈ channelTable base len n ↔ ∃ c < n, (base c, len c) = ch := by
  simp only [channelTable, List.mem_map, List.mem_range]

/-- Output element `t * n + c` of MERGE is frame `t` of channel `c` (R77). -/
theorem mergeAddrs_table {base len : Nat → Nat} {n L t c : Nat} (ht : t < L) (hc : c < n) :
    (mergeAddrs (channelTable base len n) L)[t * n + c]? = some (base c + 8 * t) := by
  have h := mergeAddrs_getElem (chans := channelTable base len n) (c := c) ht (by simpa using hc)
  simpa using h

/-- Every check of MERGE passes (R78): `L` is the length of the shortest channel. -/
structure MergeReady (s : State) (base len : Nat → Nat) (L : Nat) : Prop where
  some_channel : 0 < s.nchVal
  table : DescriptorsAre s base len
  channels_inBuf : ∀ c < s.nchVal, s.inBuf (base c) (8 * len c)
  shortest : IsShortest s.nchVal len L
  output_inBuf : s.inBuf s.dstVal (8 * s.nchVal * L)
  table_apart : ¬ overlaps s.dstVal (8 * s.nchVal * L) s.srcVal (8 * s.nchVal)
  channels_apart : ∀ c < s.nchVal, ¬ overlaps s.dstVal (8 * s.nchVal * L) (base c) (8 * len c)
  samples_written : ∀ c < s.nchVal, s.written (base c) (8 * L)

/-- MERGE reads the samples of the first `L` frames and stores them in that order (R78). -/
theorem MergeReady.exec_eq {s : State} {base len : Nat → Nat} {L : Nat} (h : MergeReady s base len L) :
    ∃ vs, s.buf.readAll 8 (mergeAddrs (channelTable base len s.nchVal) L) = some vs ∧
      exec .merge s = .next (s.complete
        { dst := s.dstVal, bytes := arrayBytes 8 vs, hdr := none, res0 := s.nchVal * L, res1 := L }) := by
  have hsamples : (s.buf.readAll 8 (mergeAddrs (channelTable base len s.nchVal) L)).isSome := by
    rw [Memory.readAll_isSome]
    intro a ha
    obtain ⟨t, ht, ch, hch, rfl⟩ := mem_mergeAddrs.mp ha
    obtain ⟨c, hc, rfl⟩ := mem_channelTable.mp hch
    exact (h.samples_written c hc).memRead_elem ht
  obtain ⟨vs, hvs⟩ := Option.isSome_iff_exists.mp hsamples
  have hchans : ∀ ch ∈ channelTable base len s.nchVal, s.inBuf ch.1 (8 * ch.2) := by
    intro ch hch
    obtain ⟨c, hc, rfl⟩ := mem_channelTable.mp hch
    exact h.channels_inBuf c hc
  have hapart : ¬ ∃ ch ∈ channelTable base len s.nchVal,
      overlaps s.dstVal (8 * s.nchVal * L) ch.1 (8 * ch.2) := by
    rintro ⟨ch, hch, hmeets⟩
    obtain ⟨c, hc, rfl⟩ := mem_channelTable.mp hch
    exact h.channels_apart c hc hmeets
  refine ⟨vs, hvs, ?_⟩
  rw [exec_eq_finish, runOf, runMerge, if_neg h.some_channel.ne', if_neg (not_not.mpr h.table.1),
    readDescriptors_table h.table]
  simp only [mergeChannels, minLen_eq h.shortest]
  rw [if_neg (not_not.mpr hchans), if_neg (not_not.mpr h.output_inBuf), if_neg h.table_apart, if_neg hapart, hvs]
  rfl

/-! ### SEPARATE -/

/-- SEPARATE reads the first `L` whole frames, channel by channel, and stores them in that order (R79). -/
theorem exec_separate_eq {s : State} {L : Nat} (hn : 0 < s.nchVal) (hL : s.countVal / s.nchVal = L)
    (hin : s.inBuf s.srcVal (8 * s.countVal)) (hout : s.inBuf s.dstVal (8 * s.nchVal * L))
    (hapart : ¬ overlaps s.dstVal (8 * s.nchVal * L) s.srcVal (8 * s.countVal))
    (hwritten : s.written s.srcVal (8 * (s.nchVal * L))) :
    ∃ vs, s.buf.readAll 8 (separateAddrs s.srcVal s.nchVal L) = some vs ∧
      exec .separate s = .next (s.complete
        { dst := s.dstVal, bytes := arrayBytes 8 vs, hdr := none, res0 := L, res1 := s.countVal % s.nchVal }) := by
  have hsamples : (s.buf.readAll 8 (separateAddrs s.srcVal s.nchVal L)).isSome := by
    rw [Memory.readAll_isSome]
    intro a ha
    obtain ⟨c, hc, t, ht, rfl⟩ := mem_separateAddrs.mp ha
    refine hwritten.memRead_elem ?_
    calc t * s.nchVal + c < (t + 1) * s.nchVal := by rw [Nat.succ_mul]; omega
      _ ≤ s.nchVal * L := by rw [Nat.mul_comm]; exact Nat.mul_le_mul_left _ ht
  obtain ⟨vs, hvs⟩ := Option.isSome_iff_exists.mp hsamples
  refine ⟨vs, hvs, ?_⟩
  rw [exec_eq_finish, runOf, runSeparate, if_neg hn.ne', if_neg (not_not.mpr hin)]
  simp only [hL]
  rw [if_neg (not_not.mpr hout), if_neg hapart, hvs]
  rfl

/-! ### SEPARATE after MERGE -/

/-- SEPARATE of `L` whole frames leaves no sample over: RES0 = L and RES1 = 0 (R80). -/
theorem exec_separate_frames {s : State} {L : Nat} (hn : 0 < s.nchVal) (hcount : s.countVal = s.nchVal * L)
    (hin : s.inBuf s.srcVal (8 * s.nchVal * L)) (hout : s.inBuf s.dstVal (8 * s.nchVal * L))
    (hapart : ¬ overlaps s.dstVal (8 * s.nchVal * L) s.srcVal (8 * s.nchVal * L))
    (hwritten : s.written s.srcVal (8 * s.nchVal * L)) :
    ∃ vs, s.buf.readAll 8 (separateAddrs s.srcVal s.nchVal L) = some vs ∧
      exec .separate s = .next (s.complete
        { dst := s.dstVal, bytes := arrayBytes 8 vs, hdr := none, res0 := L, res1 := 0 }) := by
  have hL : s.countVal / s.nchVal = L := by rw [hcount, Nat.mul_div_cancel_left L hn]
  have hrest : s.countVal % s.nchVal = 0 := by rw [hcount, Nat.mul_mod_right]
  rw [Nat.mul_assoc, ← hcount] at hin hwritten
  have h := exec_separate_eq hn hL hin hout (by rwa [hcount, ← Nat.mul_assoc]) (by rwa [← hcount])
  rwa [hrest] at h

/-- Settles O34: sample `k` of channel `c` goes to element `k * N + c` of the interleaved samples, and from there to element
`c * L + k` of the second output. -/
theorem separateInvertsMerge : Obligations.SeparateInvertsMerge := by
  intro s base len L dst' hn htable hchans hshortest hout htableApart hchansApart hsamples hout' hapart'
  have ready : MergeReady s base len L :=
    ⟨hn, htable, hchans, hshortest, hout, htableApart, hchansApart, hsamples⟩
  obtain ⟨vs, hvs, hmerge⟩ := ready.exec_eq
  set t := s.complete
    { dst := s.dstVal, bytes := arrayBytes 8 vs, hdr := none, res0 := s.nchVal * L, res1 := L }
  have hfit : s.nchVal * L < 2 ^ 32 := by
    rw [Nat.mul_assoc] at hout
    exact State.inBuf_elems_lt hout
  have hcount : (BitVec.ofNat 32 (s.nchVal * L)).toNat = s.nchVal * L := Nat.mod_eq_of_lt hfit
  have hLfit : L < 2 ^ 32 := (Nat.le_mul_of_pos_left L hn).trans_lt hfit
  have hstored : (arrayBytes 8 vs).length = 8 * s.nchVal * L := by
    simp [Memory.readAll_length hvs, Nat.mul_comm L, Nat.mul_assoc]
  have hinterleaved : t.written s.dstVal (8 * s.nchVal * L) := hstored ▸ s.complete_written _
  obtain ⟨ws, hws, hseparate⟩ := exec_separate_frames
    (s := { t with src := s.dst, count := BitVec.ofNat 32 (s.nchVal * L), dst := dst' })
    hn hcount hout hout' hapart' hinterleaved
  refine ⟨t, _, hmerge, hseparate, rfl, Nat.mod_eq_of_lt hLfit, rfl, fun c hc k hk => ?_⟩
  obtain ⟨v, hsample, hmerged⟩ := Memory.memRead_copied (d := s.dstVal) hvs (mergeAddrs_table hk hc)
  obtain ⟨v', hmerged', hsplit⟩ := Memory.memRead_copied (d := dst'.toNat) hws (separateAddrs_getElem hk hc)
  have hv : v' = v := Option.some.inj (hmerged'.symm.trans hmerged)
  refine ⟨v, hsample, ?_⟩
  rw [hv, Nat.mul_add, ← Nat.mul_assoc, ← Nat.add_assoc] at hsplit
  exact hsplit

end Sys2Proof.Machine
end

section
/-! Rounding to binary64 as a fact about numbers: which numbers binary64 represents, and that a product, a quotient and
`real n` are the exact value rounded once to a nearest one (R11). -/

namespace Sys2Proof.Machine

/-! ### Representable numbers -/

/-- A significand of at most 53 bits, or 2^53, with an exponent not below the subnormals': the finite binary64 values, and
those that exceed the largest one. -/
def Representable (y : ℚ) : Prop := ∃ m e : ℤ, |m| ≤ 2 ^ 53 ∧ -1074 ≤ e ∧ y = m * (2 : ℚ) ^ e

/-- `r` is as near to `x` as every representable number. -/
def IsNearest (r x : ℚ) : Prop := ∀ y, Representable y → |r - x| ≤ |y - x|

/-- The sign bit as a factor. -/
def sgn (neg : Bool) : ℚ := if neg then -1 else 1

theorem abs_sgn_mul (neg : Bool) (x : ℚ) : |sgn neg * x| = |x| := by
  cases neg <;> simp [sgn]

theorem abs_mul_zpow (x : ℚ) (e : ℤ) : |x * (2 : ℚ) ^ e| = |x| * (2 : ℚ) ^ e := by
  rw [abs_mul, abs_zpow, abs_two]

theorem sgn_xor (s t : Bool) : sgn (s ^^ t) = sgn s * sgn t := by
  cases s <;> cases t <;> simp [sgn]

theorem sgn_div_sgn (s t : Bool) (x y : ℚ) : sgn s * x / (sgn t * y) = sgn (s ^^ t) * (x / y) := by
  cases s <;> cases t <;> simp [sgn, neg_div, div_neg]

theorem realValue_eq (b : QWord) : realValue b = sgn (signBit b) * ((mant b : ℚ) * (2 : ℚ) ^ expo b) :=
  mul_assoc _ _ _

theorem realValue_representable (b : QWord) : Representable (realValue b) := by
  have hm : (mant b : ℤ) ≤ 2 ^ 53 := by exact_mod_cast (mant_lt b).le
  refine ⟨if signBit b then -mant b else mant b, expo b, ?_, expo_ge b, ?_⟩
  · split <;> simpa using hm
  · rw [realValue_eq, sgn, ← mul_assoc]
    split <;> simp

theorem intCast_representable {n : ℤ} (h : |n| ≤ 2 ^ 53) : Representable n :=
  ⟨n, 0, h, by norm_num, by simp⟩

theorem zero_representable : Representable 0 := by
  exact_mod_cast intCast_representable (n := 0) (by norm_num)

/-- The magnitude has a significand of at most 53 bits: 2^53 is 2^52 at the next exponent. -/
theorem Representable.abs_eq {y : ℚ} (h : Representable y) :
    ∃ (m : ℕ) (e : ℤ), m < 2 ^ 53 ∧ -1074 ≤ e ∧ |y| = m * (2 : ℚ) ^ e := by
  obtain ⟨m, e, hm, he, rfl⟩ := h
  have habs : |(m : ℚ) * (2 : ℚ) ^ e| = (m.natAbs : ℚ) * (2 : ℚ) ^ e := by
    rw [abs_mul_zpow, Nat.cast_natAbs, Int.cast_abs]
  rw [← Int.natCast_natAbs] at hm
  rcases (show m.natAbs ≤ 2 ^ 53 by exact_mod_cast hm).lt_or_eq with hlt | heq
  · exact ⟨m.natAbs, e, hlt, he, habs⟩
  · refine ⟨2 ^ 52, e + 1, by norm_num, by omega, ?_⟩
    rw [habs, heq, zpow_add_one₀ two_ne_zero]
    push_cast
    ring

/-- Above `2^j` the representable numbers are multiples of `2^(j-52)`. -/
theorem Representable.eq_intCast_mul {y : ℚ} (h : Representable y) {j : ℤ} (hj : (2 : ℚ) ^ j < |y|) :
    ∃ z : ℤ, y = z * (2 : ℚ) ^ (j - 52) := by
  obtain ⟨m, e, hm, -, rfl⟩ := h
  have hmq : |(m : ℚ)| ≤ (2 : ℚ) ^ (53 : ℤ) := by exact_mod_cast hm
  have hexp : (2 : ℚ) ^ j < (2 : ℚ) ^ (53 + e) :=
    calc (2 : ℚ) ^ j < |(m : ℚ)| * (2 : ℚ) ^ e := by rwa [abs_mul_zpow] at hj
      _ ≤ (2 : ℚ) ^ (53 : ℤ) * (2 : ℚ) ^ e := by gcongr
      _ = (2 : ℚ) ^ (53 + e) := (zpow_add₀ two_ne_zero _ _).symm
  have he : j < 53 + e := (zpow_lt_zpow_iff_right₀ one_lt_two).mp hexp
  refine ⟨m * 2 ^ (e - (j - 52)).toNat, ?_⟩
  push_cast
  rw [mul_assoc, ← scale_add, Int.toNat_of_nonneg (by omega), sub_add_cancel]

/-- An integer less than 1 from a number is bounded by the integers that bound the number. -/
theorem abs_intCast_le {x : ℚ} {n N : ℤ} (hx : |x| ≤ N) (h : |x - n| < 1) : |n| ≤ N := by
  have hlt : |(n : ℚ)| < N + 1 := by
    rw [abs_le] at hx
    rw [abs_lt] at h ⊢
    constructor <;> linarith
  exact Int.lt_add_one_iff.mp (by exact_mod_cast hlt)

/-- Up to `2^(e+53)` every number has a representable one within half of `2^e`. -/
theorem exists_representable_near {x : ℚ} {e : ℤ} (he : -1074 ≤ e) (hx : |x| ≤ (2 : ℚ) ^ (e + 53)) :
    ∃ y, Representable y ∧ |y - x| ≤ (2 : ℚ) ^ e / 2 := by
  have hp : (0 : ℚ) < (2 : ℚ) ^ e := zpow_pos two_pos e
  have hround := abs_sub_round (x / (2 : ℚ) ^ e)
  refine ⟨round (x / (2 : ℚ) ^ e) * (2 : ℚ) ^ e, ⟨_, e, ?_, he, rfl⟩, ?_⟩
  · have hquot : |x / (2 : ℚ) ^ e| ≤ 2 ^ 53 := by
      rw [abs_div, abs_of_pos hp, div_le_iff₀ hp, mul_comm]
      rwa [zpow_add₀ two_ne_zero, show (2 : ℚ) ^ (53 : ℤ) = 2 ^ 53 by norm_cast] at hx
    exact abs_intCast_le (by exact_mod_cast hquot) (hround.trans_lt (by norm_num))
  · calc |(round (x / (2 : ℚ) ^ e) : ℚ) * (2 : ℚ) ^ e - x|
        = |x / (2 : ℚ) ^ e - round (x / (2 : ℚ) ^ e)| * (2 : ℚ) ^ e := by
          rw [abs_sub_comm, ← abs_mul_zpow, sub_mul, div_mul_cancel₀ x hp.ne']
      _ ≤ 1 / 2 * (2 : ℚ) ^ e := by gcongr
      _ = (2 : ℚ) ^ e / 2 := by ring

/-! ### One rounding -/

@[simp] theorem roundMag_zero (d : ℕ) : roundMag 0 d = 0 := rfl

@[simp] theorem realValue_zero (neg : Bool) : realValue (withSign neg 0) = 0 := by
  have hmant : mant (withSign neg 0) = 0 := by cases neg <;> decide
  rw [realValue_eq, hmant, Nat.cast_zero, zero_mul, mul_zero]

/-- The encoding `b` is the exact value `x`, rounded once. -/
def Rounds (b : QWord) (x : ℚ) : Prop :=
  ∃ (neg : Bool) (n d : ℕ), 0 < d ∧ b = withSign neg (roundMag n d) ∧ x = sgn neg * ((n : ℚ) / d)

/-- The rounded value is finite exactly below the midpoint between the largest finite value and 2^1024. -/
theorem Rounds.isFinite_iff {b : QWord} {x : ℚ} (h : Rounds b x) :
    isFinite b = true ↔ |x| < ((2 : ℚ) ^ 54 - 1) * (2 : ℚ) ^ (970 : ℤ) := by
  obtain ⟨neg, n, d, hd, rfl, rfl⟩ := h
  rw [isFinite_withSign (roundMag_le n d), decide_eq_true_iff, abs_sgn_mul, abs_of_nonneg (by positivity)]
  rcases Nat.eq_zero_or_pos n with rfl | hn
  · refine iff_of_true (by rw [roundMag_zero]; decide) ?_
    rw [Nat.cast_zero, zero_div]
    exact mul_pos (by norm_num) (zpow_pos two_pos _)
  · rw [(roundMag_le n d).lt_iff_ne, ne_eq, roundMag_overflow hn hd, not_le]

theorem Rounds.isFinite_of_le {b : QWord} {x : ℚ} (h : Rounds b x) (hx : |x| ≤ 2 ^ 53) : isFinite b = true := by
  have hscale : (1 : ℚ) ≤ (2 : ℚ) ^ (970 : ℤ) := one_le_zpow₀ one_le_two (by norm_num)
  refine h.isFinite_iff.mpr (hx.trans_lt ?_)
  calc (2 : ℚ) ^ 53 < 2 ^ 54 - 1 := by norm_num
    _ ≤ (2 ^ 54 - 1) * (2 : ℚ) ^ (970 : ℤ) := le_mul_of_one_le_right (by norm_num) hscale

/-- Where it is finite, the rounded value is nearest the exact one. -/
theorem Rounds.nearest {b : QWord} {x : ℚ} (h : Rounds b x) (hf : isFinite b = true) : IsNearest (realValue b) x := by
  obtain ⟨neg, n, d, hd, rfl, rfl⟩ := h
  intro y hy
  obtain ⟨m, e, hm, he, habs⟩ := hy.abs_eq
  rw [isFinite_withSign (roundMag_le n d), decide_eq_true_iff] at hf
  rcases Nat.eq_zero_or_pos n with rfl | hn
  · simp
  · calc |realValue (withSign neg (roundMag n d)) - sgn neg * ((n : ℚ) / d)|
        = |(roundedMant n d : ℚ) * (2 : ℚ) ^ lastPlace n d - (n : ℚ) / d| := by
          rw [realValue_roundMag hn hd hf, ← sgn, ← mul_sub, abs_sgn_mul]
      _ ≤ |(m : ℚ) * (2 : ℚ) ^ e - (n : ℚ) / d| := rounded_nearest hn hd hm he
      _ = |(|y| - |sgn neg * ((n : ℚ) / d)|)| := by
          rw [habs, abs_sgn_mul, abs_of_nonneg (by positivity : (0 : ℚ) ≤ n / d)]
      _ ≤ |y - sgn neg * ((n : ℚ) / d)| := abs_abs_sub_abs_le _ _

/-- A representable number is its own nearest. -/
theorem IsNearest.eq_of_representable {r x : ℚ} (h : IsNearest r x) (hx : Representable x) : r = x := by
  have hdist := h x hx
  rw [sub_self, abs_zero] at hdist
  exact sub_eq_zero.mp (abs_nonpos_iff.mp hdist)

/-! ### The operations of R11 -/

theorem mulRne_rounds (a b : QWord) : Rounds (mulRne a b) (realValue a * realValue b) := by
  refine ⟨_, _, _, pow2_pos _, rfl, ?_⟩
  rw [realValue_eq, realValue_eq, mul_mul_mul_comm, ← sgn_xor, Nat.cast_mul, mul_div_assoc, pow2_div,
    zpow_add₀ two_ne_zero, Nat.cast_mul, mul_mul_mul_comm]

theorem divRne_rounds (a : QWord) {b : QWord} (hb : realValue b ≠ 0) :
    Rounds (divRne a b) (realValue a / realValue b) := by
  have hmant : 0 < mant b := by
    refine Nat.pos_of_ne_zero fun h => hb ?_
    simp [realValue_eq, h]
  refine ⟨_, _, _, Nat.mul_pos hmant (pow2_pos _), rfl, ?_⟩
  rw [realValue_eq, realValue_eq, sgn_div_sgn, scaled_div, zpow_sub₀ two_ne_zero, mul_div_mul_comm]

theorem real_rounds (n : ℤ) : Rounds (real n) n := by
  refine ⟨_, _, _, one_pos, rfl, ?_⟩
  rw [Nat.cast_one, div_one, Nat.cast_natAbs, sgn]
  split <;> rename_i hn
  · rw [decide_eq_true_iff] at hn
    rw [abs_of_neg hn]
    simp
  · rw [decide_eq_true_iff, not_lt] at hn
    rw [abs_of_nonneg hn, one_mul]

/-- `real` is exact up to 2^53. -/
theorem realValue_real {n : ℤ} (h : |n| ≤ 2 ^ 53) : realValue (real n) = n :=
  ((real_rounds n).nearest ((real_rounds n).isFinite_of_le (by exact_mod_cast h))).eq_of_representable
    (intCast_representable h)

theorem truncMag_eq_floor (b : QWord) : truncMag b = ⌊(mant b : ℚ) * (2 : ℚ) ^ expo b⌋₊ := by
  rw [truncMag, ← pow2_div, ← mul_div_assoc, ← Nat.cast_mul, Nat.floor_div_eq_div]

/-- `trunc` is less than 1 away. -/
theorem abs_realValue_sub_trunc_lt (b : QWord) : |realValue b - trunc b| < 1 := by
  have hsign : (trunc b : ℚ) = sgn (signBit b) * truncMag b := by
    unfold trunc sgn
    split <;> simp
  rw [hsign, realValue_eq, ← mul_sub, abs_sgn_mul, truncMag_eq_floor, abs_lt]
  set x := (mant b : ℚ) * (2 : ℚ) ^ expo b
  have hlo : (⌊x⌋₊ : ℚ) ≤ x := Nat.floor_le (by positivity)
  have hhi := Nat.lt_floor_add_one x
  constructor <;> linarith

end Sys2Proof.Machine
end

section
/-! The sample codec: what QENC loses and that QDEC's values come back (R81, R82, R86, R87). -/

namespace Sys2Proof.Machine

/-! ### The two operations of the codec -/

/-- The product `quantize` truncates (R81). -/
abbrev scaled (b : QWord) : QWord := mulRne b (real Config.maxSampleValue)

theorem realValue_maxSampleValue : realValue (real Config.maxSampleValue) = 32767 :=
  realValue_real (n := 32767) (by norm_num)

theorem scaled_rounds (b : QWord) : Rounds (scaled b) (realValue b * 32767) := by
  rw [← realValue_maxSampleValue]
  exact mulRne_rounds b _

theorem quantize_eq_trunc {b : QWord} (hb : isFinite b = true) (hx : |realValue b * 32767| ≤ 2 ^ 53) :
    quantize b = some (BitVec.ofInt 16 (trunc (scaled b))) := by
  have hp : isFinite (scaled b) = true := (scaled_rounds b).isFinite_of_le hx
  simp only [quantize]
  rw [if_pos hb, if_pos hp, wrap16]

theorem natAbs_toInt_le (v : Pcm) : v.toInt.natAbs ≤ 2 ^ 15 := by
  have hlo : -2 ^ 15 ≤ v.toInt := v.le_toInt
  have hhi : v.toInt < 2 ^ 15 := v.toInt_lt
  omega

/-- A sample is far inside the integers binary64 holds exactly. -/
theorem abs_toInt_le (v : Pcm) : |v.toInt| ≤ 2 ^ 53 := by
  have hv := natAbs_toInt_le v
  rw [Int.abs_eq_natAbs]
  omega

theorem abs_toInt_cast (v : Pcm) : |(v.toInt : ℚ)| = v.toInt.natAbs := by
  rw [Nat.cast_natAbs, Int.cast_abs]

theorem dequantize_rounds (v : Pcm) : Rounds (dequantize v) ((v.toInt : ℚ) / 32767) := by
  have hv : realValue (real v.toInt) = v.toInt := realValue_real (abs_toInt_le v)
  rw [← hv, ← realValue_maxSampleValue]
  exact divRne_rounds _ (by rw [realValue_maxSampleValue]; norm_num)

theorem isFinite_dequantize (v : Pcm) : isFinite (dequantize v) = true := by
  have hv : |(v.toInt : ℚ)| ≤ 2 ^ 53 := by exact_mod_cast abs_toInt_le v
  refine (dequantize_rounds v).isFinite_of_le ?_
  rw [abs_div]
  exact (div_le_self (abs_nonneg _) (by norm_num)).trans hv

theorem dequantize_nearest (v : Pcm) : IsNearest (realValue (dequantize v)) ((v.toInt : ℚ) / 32767) :=
  (dequantize_rounds v).nearest (isFinite_dequantize v)

/-- A distance in samples is 32767 times the distance of the values. -/
theorem abs_sub_div_mul_scale (r x : ℚ) : |r - x / 32767| * 32767 = |r * 32767 - x| := by
  calc |r - x / 32767| * 32767 = |(r - x / 32767) * 32767| := by rw [abs_mul, Nat.abs_ofNat]
    _ = |r * 32767 - x| := by rw [sub_mul, div_mul_cancel₀ x (by norm_num)]

/-! ### The quantization error (R86) -/

/-- Rounding to nearest passes no representable integer, so truncation after it stays less than 1 from the exact value. -/
theorem abs_sub_trunc_lt {p : QWord} {x : ℚ} (hp : IsNearest (realValue p) x) (hx : |x| ≤ 32767) :
    |x - trunc p| < 1 := by
  have htrunc := abs_realValue_sub_trunc_lt p
  have hzero := hp 0 zero_representable
  have hbound : |realValue p| ≤ 65534 := by
    have htriangle := abs_sub_abs_le_abs_sub (realValue p) x
    rw [zero_sub, abs_neg] at hzero
    linarith
  obtain ⟨hlo, hhi⟩ := abs_le.mp (abs_intCast_le (N := 65534) (by exact_mod_cast hbound) htrunc)
  rw [abs_lt] at htrunc
  have habove := hp _ (intCast_representable (n := trunc p + 1) (by rw [abs_le]; omega))
  have hbelow := hp _ (intCast_representable (n := trunc p - 1) (by rw [abs_le]; omega))
  push_cast at habove hbelow
  by_contra! hfar
  rcases le_abs.mp hfar with h | h
  · rw [abs_of_nonpos (by linarith), abs_of_nonpos (by linarith)] at habove
    linarith
  · rw [abs_of_nonneg (by linarith), abs_of_nonneg (by linarith)] at hbelow
    linarith

/-- An integer less than 1 from a number is 0 or has its sign. -/
theorem sign_of_abs_sub_lt_one {x : ℚ} {n : ℤ} (h : |x - n| < 1) : n = 0 ∨ (0 < n ∧ 0 < x) ∨ (n < 0 ∧ x < 0) := by
  rw [abs_lt] at h
  rcases lt_trichotomy n 0 with hn | hn | hn
  · have hle : (n : ℚ) ≤ -1 := by exact_mod_cast Int.le_sub_one_of_lt hn
    exact .inr (.inr ⟨hn, by linarith⟩)
  · exact .inl hn
  · have hge : (1 : ℚ) ≤ n := by exact_mod_cast hn
    exact .inr (.inl ⟨hn, by linarith⟩)

/-- Settles O39: everything follows from the integer being less than 1 from `s * 32767`. -/
theorem quantizationErrorBelowOneStep : Obligations.QuantizationErrorBelowOneStep := by
  intro b hb hle
  have hx : |realValue b * 32767| ≤ 32767 := by
    rw [abs_mul, Nat.abs_ofNat]
    linarith
  have hfit : |realValue b * 32767| ≤ 2 ^ 53 := hx.trans (by norm_num)
  have hnear := (scaled_rounds b).nearest ((scaled_rounds b).isFinite_of_le hfit)
  set n := trunc (scaled b)
  have herr : |realValue b * 32767 - n| < 1 := abs_sub_trunc_lt hnear hx
  obtain ⟨hlo, hhi⟩ := abs_le.mp (abs_intCast_le (N := 32767) (by exact_mod_cast hx) herr)
  refine ⟨n, quantize_eq_trunc hb hfit, hlo, hhi, ?sign, herr, ?step, fun q _ => ?nearest⟩
  case sign =>
    exact (sign_of_abs_sub_lt_one herr).imp_right
      (Or.imp (And.imp_right fun h => by linarith) (And.imp_right fun h => by linarith))
  case step =>
    rwa [lt_div_iff₀ (by norm_num), abs_sub_div_mul_scale]
  case nearest =>
    have hwrap : (BitVec.ofInt 16 n).toInt = n := by
      rw [BitVec.toInt_ofInt_eq_self (by norm_num) (by norm_num; omega) (by norm_num; omega)]
    have h := dequantize_nearest (BitVec.ofInt 16 n) _ (realValue_representable q)
    rwa [hwrap] at h

/-! ### The round trip (R87) -/

/-- A value nearest to `x` is the integer `v`, if `x` lies within half of the spacing of the binade's values from `v`. -/
theorem IsNearest.eq_intCast {p x : ℚ} {v j : ℤ} (hp : Representable p) (hnear : IsNearest p x) (hv : |v| ≤ 2 ^ 53)
    (hj : j ≤ 52) (hx : |x - v| < (2 : ℚ) ^ (j - 52) / 2) (hlo : (2 : ℚ) ^ j + (2 : ℚ) ^ (j - 52) ≤ |(v : ℚ)|) :
    p = v := by
  set g := (2 : ℚ) ^ (j - 52) with hg
  have hpos : 0 < g := zpow_pos two_pos _
  have hclose : |p - v| < g :=
    calc |p - v| ≤ |p - x| + |x - v| := abs_sub_le _ _ _
      _ ≤ |v - x| + |x - v| := add_le_add_left (hnear v (intCast_representable hv)) _
      _ < g := by
          rw [abs_sub_comm (v : ℚ)]
          linarith
  have hbinade : (2 : ℚ) ^ j < |p| := by
    have htriangle := abs_sub_abs_le_abs_sub (v : ℚ) p
    rw [abs_sub_comm] at htriangle
    linarith
  obtain ⟨z, hz⟩ := hp.eq_intCast_mul hbinade
  obtain ⟨w, hw⟩ : ∃ w : ℤ, (v : ℚ) = w * g := by
    refine ⟨v * 2 ^ (52 - j).toNat, ?_⟩
    push_cast
    rw [mul_assoc, hg, ← scale_add, Int.toNat_of_nonneg (by omega), sub_add_sub_cancel', sub_self, zpow_zero, mul_one]
  rw [hz, hw, ← sub_mul, abs_mul, abs_of_pos hpos] at hclose
  have hone : |(z : ℚ) - w| < 1 := (mul_lt_iff_lt_one_left hpos).mp hclose
  have heq : z = w := sub_eq_zero.mp (Int.abs_lt_one_iff.mp (by exact_mod_cast hone))
  rw [hz, hw, heq]

/-- `dequantize v * 32767` is as near to `v` as `y * 32767` for every representable `y`. -/
theorem dequantize_scaled_nearest (v : Pcm) {y : ℚ} (hy : Representable y) :
    |realValue (dequantize v) * 32767 - v.toInt| ≤ |y * 32767 - v.toInt| := by
  rw [← abs_sub_div_mul_scale, ← abs_sub_div_mul_scale]
  exact mul_le_mul_of_nonneg_right (dequantize_nearest v y hy) (by norm_num)

theorem abs_dequantize_mul_le (v : Pcm) : |realValue (dequantize v) * 32767| ≤ 2 ^ 53 := by
  have hdist := dequantize_scaled_nearest v zero_representable
  have hmax : (v.toInt.natAbs : ℚ) ≤ 2 ^ 15 := by exact_mod_cast natAbs_toInt_le v
  rw [zero_mul, zero_sub, abs_neg] at hdist
  have hv := abs_toInt_cast v
  have htriangle := abs_sub_abs_le_abs_sub (realValue (dequantize v) * 32767) (v.toInt : ℚ)
  linarith

theorem isFinite_scaled_dequantize (v : Pcm) : isFinite (scaled (dequantize v)) = true :=
  (scaled_rounds _).isFinite_of_le (abs_dequantize_mul_le v)

/-- Where |v| is no power of two, the quotient's last place is `2^(k-67)`, and 32767 halves of it are less than half of v's
last place `2^(k-52)`. -/
theorem dequantize_error {v : Pcm} {k : ℕ} (hlo : 2 ^ k < v.toInt.natAbs) (hhi : v.toInt.natAbs < 2 ^ (k + 1)) :
    |realValue (dequantize v) * 32767 - v.toInt| < (2 : ℚ) ^ ((k : ℤ) - 52) / 2 := by
  have hk : k < 15 := (Nat.pow_lt_pow_iff_right one_lt_two).mp (hlo.trans_le (natAbs_toInt_le v))
  have hbinade : v.toInt.natAbs * 2 ^ 14 ≤ 2 ^ k * 32767 := by
    have hpow : 2 ^ k ≤ 2 ^ 14 := Nat.pow_le_pow_right two_pos (by omega)
    omega
  have hquot : |(v.toInt : ℚ) / 32767| ≤ (2 : ℚ) ^ ((k : ℤ) - 67 + 53) := by
    rw [show (k : ℤ) - 67 + 53 = k - 14 by ring, zpow_sub₀ two_ne_zero, abs_div, abs_toInt_cast,
      Nat.abs_ofNat, div_le_div_iff₀ (by norm_num) (by norm_num)]
    exact_mod_cast hbinade
  obtain ⟨y, hy, hnear⟩ := exists_representable_near (by omega) hquot
  calc |realValue (dequantize v) * 32767 - v.toInt| ≤ |y * 32767 - v.toInt| := dequantize_scaled_nearest v hy
    _ = |y - v.toInt / 32767| * 32767 := (abs_sub_div_mul_scale _ _).symm
    _ ≤ (2 : ℚ) ^ ((k : ℤ) - 67) / 2 * 32767 := mul_le_mul_of_nonneg_right hnear (by norm_num)
    _ < (2 : ℚ) ^ ((k : ℤ) - 67) / 2 * 2 ^ 15 := mul_lt_mul_of_pos_left (by norm_num) (half_pos (zpow_pos two_pos _))
    _ = (2 : ℚ) ^ ((k : ℤ) - 52) / 2 := by
        rw [show (k : ℤ) - 52 = 15 + (k - 67) by ring, zpow_add₀ two_ne_zero]
        norm_num
        ring

/-- Where |v| is a power of two, `2^k / 32767` begins with the 46 bits of `2^45 + 2^30 + 2^15 + 1`, and the bits that follow
are too far down to matter: that number times 32767 is `2^60 - 1`. -/
theorem dequantize_error_of_two_pow {v : Pcm} {k : ℕ} (hv : v.toInt.natAbs = 2 ^ k) :
    |realValue (dequantize v) * 32767 - v.toInt| < (2 : ℚ) ^ ((k : ℤ) - 1 - 52) / 2 := by
  have hpos : (0 : ℚ) < (2 : ℚ) ^ ((k : ℤ) - 60) := zpow_pos two_pos _
  have hv0 : v.toInt ≠ 0 := by
    have hpow := Nat.two_pow_pos k
    omega
  have hsign : |v.toInt.sign| = 1 := Int.abs_sign_of_ne_zero hv0
  have hvq : (v.toInt : ℚ) = v.toInt.sign * (2 ^ 60 * (2 : ℚ) ^ ((k : ℤ) - 60)) := by
    have hk : (2 : ℚ) ^ 60 * (2 : ℚ) ^ ((k : ℤ) - 60) = |(v.toInt : ℚ)| := by
      rw [abs_toInt_cast, hv, ← scale_add]
      simp
    rw [hk]
    exact_mod_cast (Int.sign_mul_abs v.toInt).symm
  have hy : Representable (((v.toInt.sign * (2 ^ 45 + 2 ^ 30 + 2 ^ 15 + 1) : ℤ) : ℚ) * (2 : ℚ) ^ ((k : ℤ) - 60)) :=
    ⟨_, _, by rw [abs_mul, hsign]; norm_num, by omega, rfl⟩
  refine (dequantize_scaled_nearest v hy).trans_lt ?_
  calc _ = |(v.toInt.sign : ℚ) * -(2 : ℚ) ^ ((k : ℤ) - 60)| := by
        conv_lhs => rw [hvq]
        congr 1
        push_cast
        ring
    _ = (2 : ℚ) ^ ((k : ℤ) - 60) := by
        rw [abs_mul, ← Int.cast_abs, hsign, abs_neg, abs_of_pos hpos, Int.cast_one, one_mul]
    _ < (2 : ℚ) ^ ((k : ℤ) - 1 - 52) / 2 := by
        rw [show (k : ℤ) - 1 - 52 = 7 + (k - 60) by ring, zpow_add₀ two_ne_zero]
        norm_num
        linarith

/-- The product rounds back onto `v`: it lies within half of the last place of `v`, or of the smaller last place below it
where |v| is a power of two. -/
theorem realValue_scaled_dequantize (v : Pcm) : realValue (scaled (dequantize v)) = v.toInt := by
  have hnear := (scaled_rounds _).nearest (isFinite_scaled_dequantize v)
  have back {j : ℤ} := hnear.eq_intCast (j := j) (realValue_representable _) (abs_toInt_le v)
  rcases Nat.eq_zero_or_pos v.toInt.natAbs with hzero | hpos
  · have hv : v.toInt = 0 := Int.natAbs_eq_zero.mp hzero
    have hquot := dequantize_nearest v
    rw [hv, Int.cast_zero, zero_div] at hquot
    rw [hquot.eq_of_representable zero_representable, zero_mul] at hnear
    rw [hnear.eq_of_representable zero_representable, hv, Int.cast_zero]
  · obtain ⟨k, hlo, hhi⟩ : ∃ k, 2 ^ k ≤ v.toInt.natAbs ∧ v.toInt.natAbs < 2 ^ (k + 1) :=
      ⟨_, Nat.log2_self_le hpos.ne', Nat.lt_log2_self⟩
    have hk : k ≤ 15 := (Nat.pow_le_pow_iff_right one_lt_two).mp (hlo.trans (natAbs_toInt_le v))
    rcases hlo.lt_or_eq with hlt | heq
    · refine back (by omega) (dequantize_error hlt hhi) ?_
      have hstep : (2 : ℚ) ^ k + 1 ≤ v.toInt.natAbs := by exact_mod_cast hlt
      have hone : (2 : ℚ) ^ ((k : ℤ) - 52) ≤ 1 := zpow_le_one_of_nonpos₀ one_le_two (by omega)
      rw [abs_toInt_cast, zpow_natCast]
      linarith
    · refine back (by omega) (dequantize_error_of_two_pow heq.symm) ?_
      rw [abs_toInt_cast, ← heq]
      have hle : (2 : ℚ) ^ ((k : ℤ) - 1 - 52) ≤ (2 : ℚ) ^ ((k : ℤ) - 1) := zpow_le_zpow_right₀ one_le_two (by omega)
      have hdouble : (2 : ℚ) ^ (k : ℤ) = (2 : ℚ) ^ ((k : ℤ) - 1) * 2 := by
        rw [← zpow_add_one₀ two_ne_zero, sub_add_cancel]
      push_cast
      rw [zpow_natCast] at hdouble
      linarith

/-- Settles O41: the product is `v` again, and so is its truncation. -/
theorem pcmRoundTrip : Obligations.PcmRoundTrip := by
  intro v
  have htrunc := abs_realValue_sub_trunc_lt (scaled (dequantize v))
  rw [realValue_scaled_dequantize] at htrunc
  have heq : v.toInt = trunc (scaled (dequantize v)) :=
    sub_eq_zero.mp (Int.abs_lt_one_iff.mp (by exact_mod_cast htrunc))
  rw [quantize_eq_trunc (isFinite_dequantize v) (abs_dequantize_mul_le v), ← heq, BitVec.ofInt_toInt]

end Sys2Proof.Machine
end

section
/-! HBUILD, ASSEMBLE and HPARSE where no check fails: the completion of each, the registers the built header parses to, and
the round trip through all three (R88 to R92). -/

namespace Sys2Proof.Machine

/-! ### The built header, parsed -/

/-- R89's three limits say that every field fits its width (R88). -/
theorem not_fieldOverflows_iff {c n r : Nat} :
    ¬ fieldOverflows c n r ↔ c ≤ 2147483629 ∧ n ≤ 32767 ∧ r * (2 * n) ≤ 4294967295 := by
  unfold fieldOverflows
  omega

theorem tagsMatch_headerBytes (c n r : Nat) : tagsMatch (headerBytes c n r) = true := by
  obtain ⟨hriff, -, hwave, hfmt, -, -, -, -, -, -, -, hdata, -⟩ := headerBytes_slices c n r
  simp [tagsMatch, -List.drop_zero, hriff, hwave, hfmt, hdata]

/-- A 4-byte field fills its register: only `v mod 2^32` is left either way. -/
theorem ofNat_fromLe_leBytes_four (v : Nat) : BitVec.ofNat 32 (fromLe (leBytes 4 v)) = BitVec.ofNat 32 v := by
  apply BitVec.eq_of_toNat_eq
  simp [fromLe_leBytes]

theorem fromLe_leBytes_two {v : Nat} (hv : v < 2 ^ 16) : fromLe (leBytes 2 v) = v := by
  rw [fromLe_leBytes]
  exact Nat.mod_eq_of_lt hv

/-- The registers HPARSE gives for a header HBUILD wrote (R35, R88): R89's limit on the channels keeps the 2-byte fields
whole. -/
theorem headerRegs_headerBytes {c n : Nat} (r : Nat) (hn : n ≤ 32767) :
    headerRegs (headerBytes c n r) =
      #v[0x46464952, BitVec.ofNat 32 (36 + 2 * c), 0x45564157, 0x20746D66, 16, 1, BitVec.ofNat 32 n, BitVec.ofNat 32 r,
        BitVec.ofNat 32 (r * (2 * n)), BitVec.ofNat 32 (2 * n), 16, 0x61746164, BitVec.ofNat 32 (2 * c)] := by
  obtain ⟨hriff, hsize, hwave, hfmt, hfmtSize, hformat, hchannels, hrate, hbyteRate, halign, hbits, hdata, hdataSize⟩ :=
    headerBytes_slices c n r
  simp only [headerRegs, field, hriff, hsize, hwave, hfmt, hfmtSize, hformat, hchannels, hrate, hbyteRate, halign, hbits,
    hdata, hdataSize, ofNat_fromLe_leBytes_four, fromLe_leBytes_two (show n < 2 ^ 16 by omega),
    fromLe_leBytes_two (show 2 * n < 2 ^ 16 by omega)]
  rfl

/-! ### What a command's stores leave behind -/

/-- A write leaves no byte unwritten that was written before (R58). -/
theorem Memory.isSome_read_writeBytes {m : Memory} {x : Nat} (a : Nat) (bs : List Byte) (h : (m.read x).isSome) :
    ((m.writeBytes a bs).read x).isSome := by
  rcases Nat.lt_or_ge x a with hbelow | hfrom
  · rwa [Memory.read_writeBytes_of_lt m a bs hbelow]
  rcases Nat.lt_or_ge x (a + bs.length) with hin | habove
  · obtain ⟨k, rfl⟩ := Nat.exists_eq_add_of_le hfrom
    rw [Memory.read_writeBytes_at m a bs (by omega : k < bs.length)]
    rfl
  · rwa [Memory.read_writeBytes_of_ge m a bs habove]

/-- The first bytes of what is written are read back. -/
theorem Memory.readBytes_writeBytes_prefix (m : Memory) (a : Nat) (hs ps : List Byte) :
    (m.writeBytes a (hs ++ ps)).readBytes a hs.length = some hs := by
  simpa using Memory.readBytes_writeBytes_slice m a (hs ++ ps) (i := 0) (n := hs.length) (by simp)

/-- STICKY is unchanged by either success (R25). -/
theorem EndsInSuccess.trans {s t u : State} (hst : EndsInSuccess s t) (htu : EndsInSuccess t u) : EndsInSuccess s u := by
  rw [EndsInSuccess, htu, hst]

/-- `t` is `s` after a success that stored `bs` at `a`, as far as a later command can tell. -/
structure Stores (s t : State) (a : Nat) (bs : List Byte) : Prop where
  success : EndsInSuccess s t
  bufSize : t.bufSize = s.bufSize
  buf : t.buf = s.buf.writeBytes a bs

theorem State.complete_stores (s : State) (e : Effect) : Stores s (s.complete e) e.dst e.bytes := ⟨rfl, rfl, rfl⟩

theorem Stores.readBytes_prefix {s t : State} {a : Nat} {hs ps : List Byte} (h : Stores s t a (hs ++ ps)) :
    t.buf.readBytes a hs.length = some hs := by
  rw [h.buf, Memory.readBytes_writeBytes_prefix]

/-- A range written before can be read after the store, whether or not the store met it. -/
theorem Stores.exists_readBytes {s t : State} {a x n : Nat} {bs : List Byte} (h : Stores s t a bs)
    (hx : s.written x n) : ∃ ps, t.buf.readBytes x n = some ps := by
  rw [← Option.isSome_iff_exists, Memory.readBytes_isSome, h.buf]
  exact fun k hk => Memory.isSome_read_writeBytes a bs (hx k hk)

/-- Only BUF_BYTES decides whether a range lies in BUF (R57). -/
theorem State.inBuf_congr {s t : State} (h : t.bufSize = s.bufSize) {a n : Nat} : t.inBuf a n ↔ s.inBuf a n := by
  rw [State.inBuf, State.bufBytes, h, State.inBuf, State.bufBytes]

/-! ### The completion of each command -/

/-- HBUILD stores the header and answers its length and the data size (R89). -/
theorem exec_hbuild_eq {s : State} (hin : s.inBuf s.dstVal 44) (hfit : ¬ fieldOverflows s.countVal s.nchVal s.rateVal) :
    exec .hbuild s = .next (s.complete
      { dst := s.dstVal, bytes := headerBytes s.countVal s.nchVal s.rateVal, hdr := none, res0 := 44,
        res1 := 2 * s.countVal }) := by
  rw [exec_eq_finish, runOf, runHbuild, if_neg (not_not.mpr hin), if_neg hfit]
  rfl

/-- ASSEMBLE stores the header bytes and the payload bytes it read, one behind the other (R90). -/
theorem exec_assemble_eq {s : State} {hs ps : List Byte} (hheader : s.inBuf s.srcVal 44)
    (hpayload : s.inBuf s.src2Val s.countVal) (hout : s.inBuf s.dstVal (44 + s.countVal))
    (hheaderApart : ¬ overlaps s.dstVal (44 + s.countVal) s.srcVal 44)
    (hpayloadApart : ¬ overlaps s.dstVal (44 + s.countVal) s.src2Val s.countVal)
    (hhs : s.buf.readBytes s.srcVal 44 = some hs) (hps : s.buf.readBytes s.src2Val s.countVal = some ps) :
    exec .assemble s = .next (s.complete
      { dst := s.dstVal, bytes := hs ++ ps, hdr := none, res0 := 44 + s.countVal, res1 := 0 }) := by
  rw [exec_eq_finish, runOf, runAssemble, if_neg (not_not.mpr hheader), if_neg (not_not.mpr hpayload),
    if_neg (not_not.mpr hout), if_neg hheaderApart, if_neg hpayloadApart]
  simp only [hhs, hps]
  rfl

/-- HPARSE of a header and `n` payload bytes reads the header into the HDR registers and answers the payload's address and
length; a header with R72's tags passes in both modes (R91). -/
theorem exec_hparse_eq {s : State} {hs : List Byte} {n : Nat} (hcount : s.countVal = 44 + n)
    (hin : s.inBuf s.srcVal (44 + n)) (hread : s.buf.readBytes s.srcVal 44 = some hs) (htags : tagsMatch hs = true) :
    exec .hparse s = .next (s.complete
      { dst := 0, bytes := [], hdr := some (headerRegs hs), res0 := s.srcVal + 44, res1 := n }) := by
  rw [exec_eq_finish, runOf, runHparse, hcount, if_neg (not_lt.mpr (Nat.le_add_right 44 n)),
    if_neg (not_not.mpr hin)]
  simp [hread, htags]

/-! ### The round trip -/

/-- Settles O52: the header HBUILD stored is what ASSEMBLE reads and puts in front of the image, so HPARSE reads the same 44
bytes, whose tags match. -/
theorem headerRoundTrip : Obligations.HeaderRoundTrip := by
  intro s d p d' n hc hn hr hheader hpayload himage hheaderApart hpayloadApart hwritten
  set hs := headerBytes s.countVal s.nchVal s.rateVal
  have hlen : hs.length = 44 := headerBytes_length _ _ _
  obtain ⟨t, hbuild, ht⟩ : ∃ t, exec .hbuild { s with dst := d } = .next t ∧ Stores { s with dst := d } t d.toNat hs :=
    ⟨_, exec_hbuild_eq hheader (not_fieldOverflows_iff.mpr ⟨hc, hn, hr⟩), State.complete_stores _ _⟩
  have hbuilt : t.buf.readBytes d.toNat 44 = some hs := hlen ▸ Stores.readBytes_prefix (ps := []) (by simpa using ht)
  obtain ⟨ps, hps⟩ := ht.exists_readBytes hwritten
  have hinBuf {a n : Nat} : s.inBuf a n → t.inBuf a n := (State.inBuf_congr ht.bufSize).mpr
  obtain ⟨u, hassemble, hu⟩ : ∃ u, exec .assemble { t with src := d, src2 := p, count := n, dst := d' } = .next u ∧
      Stores { t with src := d, src2 := p, count := n, dst := d' } u d'.toNat (hs ++ ps) :=
    ⟨_, exec_assemble_eq (hinBuf hheader) (hinBuf hpayload) (hinBuf himage) hheaderApart hpayloadApart hbuilt hps,
      State.complete_stores _ _⟩
  have hassembled : u.buf.readBytes d'.toNat 44 = some hs := hlen ▸ hu.readBytes_prefix
  have hend : d'.toNat + (44 + n.toNat) ≤ s.bufBytes := himage.resolve_left (by omega)
  have hsize : s.bufBytes < 2 ^ 32 := s.bufSize.isLt
  have hcount : (BitVec.ofNat 32 (44 + n.toNat)).toNat = 44 + n.toNat := Nat.mod_eq_of_lt (by omega)
  have himage' : u.inBuf d'.toNat (44 + n.toNat) := (State.inBuf_congr hu.bufSize).mpr (hinBuf himage)
  obtain ⟨w, hparse, hw, hhdr, hres0, hres1⟩ : ∃ w,
      exec .hparse { u with src := d', count := BitVec.ofNat 32 (44 + n.toNat) } = .next w ∧ EndsInSuccess u w ∧
        w.hdr = headerRegs hs ∧ w.res0 = BitVec.ofNat 32 (d'.toNat + 44) ∧ w.res1 = BitVec.ofNat 32 n.toNat :=
    ⟨_, exec_hparse_eq hcount himage' hassembled (tagsMatch_headerBytes _ _ _), rfl, rfl, rfl, rfl⟩
  have hreg (k : Fin 13) := congrArg (·[k]) (hhdr.trans (headerRegs_headerBytes s.rateVal hn))
  have hnum {x : Word} {v : Nat} (hx : x = BitVec.ofNat 32 v) (hv : v < 2 ^ 32) : x.toNat = v := by
    rw [hx, BitVec.toNat_ofNat, Nat.mod_eq_of_lt hv]
  refine ⟨t, u, w, hbuild, hassemble, hparse, (ht.success.trans hu.success).trans hw, hreg 0, hnum (hreg 1) (by omega),
    hreg 2, hreg 3, hreg 4, hreg 5, hnum (hreg 6) (by omega), hnum (hreg 7) s.rate.isLt, ?_, hnum (hreg 9) (by omega),
    hreg 10, hreg 11, hnum (hreg 12) (by omega), hnum hres0 (by omega),
    BitVec.eq_of_toNat_eq (hnum hres1 n.isLt)⟩
  rw [Nat.mul_comm]
  exact hnum (hreg 8) (by omega)

end Sys2Proof.Machine
end

section
/-! Command issue and NOP (R93, R94): a write of CMD while BUSY = 0 and while BUSY = 1, and a completion that stores
nothing. -/

namespace Sys2Proof.Machine

/-! ### Register writes while BUSY = 1 (R113) -/

/-- An access that neither R49 nor R50 forbids records HAZARD alone. -/
theorem accessFault_false_busy {s : State} (hbusy : s.status.busy = true) :
    s.accessFault false = { s with faults := { s.faults with hazard := true }, returned := none } := by
  simp [State.accessFault, hbusy]

/-- No register can be written while BUSY = 1: the counterpart of `hostAccess_writeReg_idle`. -/
theorem hostAccess_writeReg_busy {s : State} (hbusy : s.status.busy = true) (r : Reg) (v : QWord) :
    s.hostAccess (.write .reg r.offset .w4 v) =
      { s with faults := { s.faults with hazard := true }, returned := none } := by
  rw [← accessFault_false_busy hbusy]
  simp [State.hostAccess, State.hostWriteReg, hbusy]

/-- Settles O7: while BUSY = 0 the write is `issue` of the word, whatever it is; while BUSY = 1 it is the register write
R113 forbids. -/
theorem cmdWriteIssues : Obligations.CmdWriteIssues := by
  refine fun s v => ⟨fun hidle => ?idle, fun hbusy => ?busy⟩
  case idle => exact hostAccess_writeCmd_idle hidle v
  case busy => exact hostAccess_writeReg_busy hbusy .cmd v

/-! ### Completion without an effect -/

/-- `complete(0, 0)` of a command that stores no byte and gives no header: only RES0, RES1 and STATUS change (R95). -/
theorem State.complete_empty (s : State) (d : Nat) :
    s.complete { dst := d, bytes := [], hdr := none, res0 := 0, res1 := 0 } =
      { s with
        res0 := 0
        res1 := 0
        status := { busy := false, done := true, err := false, sticky := s.status.sticky, errcode := .none } } := rfl

theorem exec_nop_eq (s : State) :
    exec .nop s = .next (s.complete { dst := 0, bytes := [], hdr := none, res0 := 0, res1 := 0 }) :=
  exec_eq_finish .nop s

/-- Settles O28: the word 0 is NOP's encoding, and NOP's completion is the empty one. -/
theorem nopCompletes : Obligations.NopCompletes := by
  refine ⟨decode_encode .nop, fun s => ?_⟩
  rw [exec_nop_eq, State.complete_empty]

end Sys2Proof.Machine
end

section
/-! The ends of a command (R95, R99, R103): what each leaves unchanged, and the engine's turn as one of the three. -/

namespace Sys2Proof.Machine

/-! ### What each end leaves unchanged -/

theorem State.complete_endsInSuccess (s : State) (e : Effect) : EndsInSuccess s (s.complete e) :=
  s.complete_status e

theorem State.complete_sameSetup (s : State) (e : Effect) : SameSetup s (s.complete e) where
  cmd := s.complete_cmd e
  strict := s.complete_strict e
  src := s.complete_src e
  src2 := s.complete_src2 e
  dst := s.complete_dst e
  count := s.complete_count e
  nch := s.complete_nch e
  rate := s.complete_rate e
  bufSize := s.complete_bufSize e
  faults := s.complete_faults e
  program := s.complete_program e
  schedule := s.complete_schedule e
  returned := s.complete_returned e

theorem State.deviceError_eq_withError (s : State) (c : ErrCode) : s.deviceError c = s.withError c := rfl

theorem State.modelFault_uninitRead (s : State) : s.modelFault .uninitRead = s.withUninitRead := rfl

/-! ### The three ways (R99) -/

/-- A result that a command's rule can give ends in one of the three ways: each constructor of `CmdResult` is one. -/
theorem finish_cases {s : State} {res : CmdResult} (hok : ResultOk s res) :
    (EndsInSuccess s (s.finish res) ∧ SameSetup s (s.finish res)) ∨
      (∃ c, c ≠ .none ∧ s.finish res = s.withError c) ∨ s.finish res = s.withUninitRead := by
  cases res with
  | complete e => exact .inl ⟨s.complete_endsInSuccess e, s.complete_sameSetup e⟩
  | error c => exact .inr (.inl ⟨c, hok, s.deviceError_eq_withError c⟩)
  | modelFault k =>
    obtain rfl : k = .uninitRead := hok
    exact .inr (.inr s.modelFault_uninitRead)

/-- Settles O8: the engine's turn finishes `engineResult`, and by `engineResult_ok` that is one of the results of
`finish_cases`. -/
theorem engineTurnEndsInOneOfThreeWays : Obligations.EngineTurnEndsInOneOfThreeWays :=
  fun s hbusy => ⟨_, engineTurn_busy hbusy, finish_cases (engineResult_ok s)⟩

end Sys2Proof.Machine
end

section
/-! The whole machine: everything a step can do to the device, the invariant that every step keeps, and the rules of
R22, R38, R39 and R105 that hold of every step. -/

namespace Sys2Proof.Machine

/-! ### The host's side of the state -/

/-- `s` with another host side: the model's own three fields, which no device rule reads (logs 3, 4). -/
def State.withHost (s : State) (p : List HostOp) (q : List Turn) (o : Option QWord) : State :=
  { s with program := p, schedule := q, returned := o }

section
variable (s : State) (p : List HostOp) (q : List Turn) (o : Option QWord)

@[simp] theorem State.withHost_cmd : (s.withHost p q o).cmd = s.cmd := rfl
@[simp] theorem State.withHost_status : (s.withHost p q o).status = s.status := rfl
@[simp] theorem State.withHost_strict : (s.withHost p q o).strict = s.strict := rfl
@[simp] theorem State.withHost_src : (s.withHost p q o).src = s.src := rfl
@[simp] theorem State.withHost_src2 : (s.withHost p q o).src2 = s.src2 := rfl
@[simp] theorem State.withHost_dst : (s.withHost p q o).dst = s.dst := rfl
@[simp] theorem State.withHost_count : (s.withHost p q o).count = s.count := rfl
@[simp] theorem State.withHost_nch : (s.withHost p q o).nch = s.nch := rfl
@[simp] theorem State.withHost_rate : (s.withHost p q o).rate = s.rate := rfl
@[simp] theorem State.withHost_res0 : (s.withHost p q o).res0 = s.res0 := rfl
@[simp] theorem State.withHost_res1 : (s.withHost p q o).res1 = s.res1 := rfl
@[simp] theorem State.withHost_bufSize : (s.withHost p q o).bufSize = s.bufSize := rfl
@[simp] theorem State.withHost_bufBytes : (s.withHost p q o).bufBytes = s.bufBytes := rfl
@[simp] theorem State.withHost_hdr : (s.withHost p q o).hdr = s.hdr := rfl
@[simp] theorem State.withHost_buf : (s.withHost p q o).buf = s.buf := rfl
@[simp] theorem State.withHost_faults : (s.withHost p q o).faults = s.faults := rfl

/-- A register write is the same whatever the host has still to do. -/
theorem State.withHost_writeReg (r : Reg) (v : Word) :
    (s.withHost p q o).writeReg r v = (s.writeReg r v).withHost p q o := by
  cases r <;> rfl

end

/-! ### Everything a step can do to the device -/

/-- The device's part of a step, the host's side of the result left open: nothing; the completion of a command; a model
fault of a host access; a host's register write or BUF write, both only while BUSY = 0; a reset. -/
inductive DeviceStep (s : State) : State → Prop where
  | unchanged (p : List HostOp) (q : List Turn) (o : Option QWord) : DeviceStep s (s.withHost p q o)
  | completion (q : List Turn) (res : CmdResult) (hbusy : s.status.busy = true)
      (hturn : s.schedule = .engine :: q ∨ s.schedule = []) (hok : ResultOk (s.withHost s.program q s.returned) res) :
      DeviceStep s ((s.withHost s.program q s.returned).finish res)
  | hostFault (f : FaultRecord) (p : List HostOp) (q : List Turn) (o : Option QWord)
      (hgrows : ∀ k, s.faults.has k = true → f.has k = true) :
      DeviceStep s ({ s with faults := f }.withHost p q o)
  | regWrite (r : Reg) (v : QWord) (rest p : List HostOp) (q : List Turn) (o : Option QWord)
      (hidle : s.status.busy = false) (hprog : s.program = .access (.write .reg r.offset .w4 v) :: rest) :
      DeviceStep s ((s.writeReg r (v.setWidth 32)).withHost p q o)
  | bufWrite (x : Nat) (w : Width) (v : QWord) (p : List HostOp) (q : List Turn) (o : Option QWord)
      (hidle : s.status.busy = false) (hin : x + w.bytes ≤ s.bufBytes) :
      DeviceStep s ({ s with buf := s.buf.memWrite x w.bytes v.toNat }.withHost p q o)
  | reset (q : List Turn) (p : List HostOp) (o : Option QWord) (hturn : s.schedule = .reset :: q) :
      DeviceStep s (s.resetEvent.withHost p q o)

/-- An access fault adds BUS_ERROR, HAZARD, both or neither, and removes nothing (R39). -/
theorem accessFault_grows (s : State) (bus : Bool) (k : FaultKind) (h : s.faults.has k = true) :
    (s.accessFault bus).faults.has k = true := by
  cases k <;> simp_all [State.accessFault, FaultRecord.has]

theorem FaultRecord.has_add_of_has {r : FaultRecord} {k : FaultKind} (j : FaultKind) (h : r.has k = true) :
    (r.add j).has k = true := by
  rw [FaultRecord.has_add, h, Bool.true_or]

/-- The host's turn on a state with the turn taken off the schedule. -/
theorem hostTurn_deviceStep (s : State) (q : List Turn) :
    DeviceStep s (s.withHost s.program q s.returned).hostTurn := by
  rcases hostTurn_cases (s.withHost s.program q s.returned) with h | ⟨a, rest, hprog, h⟩ | ⟨rest, p, _, h⟩ <;> rw [h]
  · exact .unchanged _ _ _
  · rcases hostAccess_cases (s.withHost rest q s.returned) a with
      ⟨bus, h⟩ | ⟨v, h⟩ | ⟨r, v, hidle, rfl, h⟩ | ⟨_, h⟩ | ⟨x, w, v, hidle, hin, rfl, h⟩
    · exact h ▸ .hostFault _ rest q none (accessFault_grows s bus)
    · exact h ▸ .unchanged rest q (some v)
    · rw [State.withHost_writeReg] at h
      exact h ▸ .regWrite r v rest rest q none hidle hprog
    · exact h ▸ .hostFault _ rest q none fun k => FaultRecord.has_add_of_has .uninitRead
    · exact h ▸ .bufWrite x w v rest q none hidle hin
  · exact .unchanged p q _

theorem engineTurn_deviceStep {s t : State} {q : List Turn} (hturn : s.schedule = .engine :: q ∨ s.schedule = [])
    (h : engineTurn (s.withHost s.program q s.returned) = .next t) : DeviceStep s t := by
  cases hbusy : s.status.busy with
  | true =>
    rw [engineTurn_busy (s := s.withHost _ q _) hbusy] at h
    cases h
    exact .completion q _ hbusy hturn (engineResult_ok _)
  | false =>
    rw [engineTurn_idle (s := s.withHost _ q _) hbusy] at h
    cases h
    exact .unchanged _ _ _

/-- Every step is one of these. -/
theorem step_deviceStep {s t : State} (h : step s = .next t) : DeviceStep s t := by
  obtain ⟨q, ⟨hturn, h⟩ | ⟨_, rfl⟩ | ⟨hempty, rfl, _, rfl⟩ | ⟨hturn, rfl⟩⟩ := step_cases h
  · exact engineTurn_deviceStep (hturn.imp_right And.left) h
  · exact hostTurn_deviceStep s q
  · have hsame : s.withHost s.program [] s.returned = s := by rw [← hempty]; rfl
    exact hsame ▸ hostTurn_deviceStep s []
  · exact .reset q s.program none hturn

/-! ### Reset (R19, R41, R110) -/

theorem resetWith_readReg (size : Word) (r : Reg) : (State.resetWith size).readReg r = r.resetValue size := by
  cases r with
  | status => exact (by decide : Status.cleared.word = 0)
  | ctrl => exact (by decide : (0#31 ++ BitVec.ofBool false : BitVec (31 + 1)) = 0)
  | hdr k => simp [State.readReg, State.resetWith, Reg.resetValue]
  | _ => rfl

/-- Settles O1: the table is `resetWith_readReg`, and BUF's list of written bytes is empty. -/
theorem resetLeavesTableValues : Obligations.ResetLeavesTableValues :=
  fun size => ⟨resetWith_readReg size, fun _ => rfl, rfl⟩

/-- A register's value depends on the registers alone, so the reset event's table is the first reset's. -/
theorem resetEvent_readReg (s : State) (r : Reg) : s.resetEvent.readReg r = r.resetValue s.bufSize := by
  rw [← resetWith_readReg]
  cases r <;> rfl

/-- Settles O2: the step is the reset event on the state with the turn taken off the schedule. -/
theorem resetEventAbandonsCommand : Obligations.ResetEventAbandonsCommand := by
  intro s rest hturn
  refine ⟨({ s with schedule := rest }).resetEvent, ?_, resetEvent_readReg _, rfl, fun _ => rfl, rfl, rfl, rfl, rfl⟩
  simp only [step, hturn]

/-! ### The invariant -/

/-- The rules about STATUS (R22 to R26), one per way of writing it. -/
theorem Status.consistent_cleared : Status.cleared.Consistent := ⟨by simp, by simp, by simp⟩

theorem Status.consistent_issue (st : Status) : st.issue.Consistent := ⟨by simp, by simp, by simp⟩

theorem Status.consistent_success (st : Status) : st.success.Consistent := ⟨by simp, by simp, by simp⟩

theorem Status.consistent_failure (st : Status) {c : ErrCode} (hc : c ≠ .none) : (st.failure c).Consistent :=
  ⟨by simp, by simpa using hc, by simp⟩

theorem Status.Consistent.hostWrite {st : Status} (h : st.Consistent) (v : Word) : (st.hostWrite v).Consistent :=
  ⟨h.busy_clear, h.err_iff, h.err_done⟩

/-- The host's side is no part of the invariant. -/
theorem State.Inv.withHost {s : State} (h : s.Inv) (p : List HostOp) (q : List Turn) (o : Option QWord) :
    (s.withHost p q o).Inv :=
  ⟨h.buf_wf, h.buf_inside, h.size_ok, h.status_ok, h.hdr_ok⟩

/-- Bytes stored inside BUF leave every written byte inside BUF (R44). -/
theorem writeBytes_inside {m : Memory} {size a : Nat} {bs : List Byte} (h : ∀ c ∈ m, c.1 < size)
    (hin : inBuf size a bs.length) : ∀ c ∈ m.writeBytes a bs, c.1 < size := by
  intro c hc
  rcases Memory.mem_writeBytes hc with hc | ⟨hlo, hhi⟩
  · exact h c hc
  · rcases hin with hin | hin <;> omega

theorem State.Inv.complete {s : State} (h : s.Inv) {e : Effect} (he : EffectOk s e) : (s.complete e).Inv where
  buf_wf := Memory.writeBytes_wf h.buf_wf _ _
  buf_inside := writeBytes_inside h.buf_inside he.inside
  size_ok := h.size_ok
  status_ok := s.status.consistent_success
  hdr_ok := by
    rw [State.complete_hdr]
    cases hhdr : e.hdr with
    | none => exact h.hdr_ok
    | some r => exact he.hdr r hhdr

theorem State.Inv.finish {s : State} (h : s.Inv) {res : CmdResult} (hok : ResultOk s res) : (s.finish res).Inv := by
  cases res with
  | complete e => exact h.complete hok
  | error c => exact ⟨h.buf_wf, h.buf_inside, h.size_ok, s.status.consistent_failure hok, h.hdr_ok⟩
  | modelFault k => exact ⟨h.buf_wf, h.buf_inside, h.size_ok, h.status_ok, h.hdr_ok⟩

/-- Of the registers a host can write, only CMD and STATUS touch what the invariant speaks of. -/
theorem State.Inv.writeReg {s : State} (h : s.Inv) (r : Reg) (v : Word) : (s.writeReg r v).Inv := by
  obtain ⟨hwf, hinside, hsize, hstatus, hhdr⟩ := h
  cases r with
  | cmd => exact ⟨hwf, hinside, hsize, s.status.consistent_issue, hhdr⟩
  | status => exact ⟨hwf, hinside, hsize, hstatus.hostWrite v, hhdr⟩
  | _ => exact ⟨hwf, hinside, hsize, hstatus, hhdr⟩

theorem State.Inv.memWrite {s : State} (h : s.Inv) {a n : Nat} (hin : a + n ≤ s.bufBytes) (v : Nat) :
    ({ s with buf := s.buf.memWrite a n v } : State).Inv where
  buf_wf := Memory.memWrite_wf h.buf_wf a n v
  buf_inside := writeBytes_inside h.buf_inside (.inr (by rwa [leBytes_length]))
  size_ok := h.size_ok
  status_ok := h.status_ok
  hdr_ok := h.hdr_ok

theorem resetWith_inv {size : Word} (hsize : bufBytesWf size.toNat = true) : (State.resetWith size).Inv where
  buf_wf := List.Pairwise.nil
  buf_inside := by simp [State.resetWith]
  size_ok := hsize
  status_ok := Status.consistent_cleared
  hdr_ok := by simp [HdrZeroExtended, State.resetWith]

/-- Settles O53: BUF is empty, STATUS is 0 and so is every HDR register. -/
theorem resetMeetsInvariant : Obligations.ResetMeetsInvariant :=
  ⟨fun _ => resetWith_inv, resetWith_inv (by decide)⟩

/-- Settles O54: one lemma for each of the things a step can do to the device. -/
theorem stepKeepsInvariant : Obligations.StepKeepsInvariant := by
  intro s t hinv hstep
  cases step_deviceStep hstep with
  | unchanged p q o => exact hinv.withHost p q o
  | completion q res _ _ hok => exact (hinv.withHost s.program q s.returned).finish hok
  | hostFault f p q o _ =>
    obtain ⟨hwf, hinside, hsize, hstatus, hhdr⟩ := hinv
    exact ⟨hwf, hinside, hsize, hstatus, hhdr⟩
  | regWrite r v _ p q o _ _ => exact (hinv.writeReg r _).withHost p q o
  | bufWrite x w v p q o _ hin => exact (hinv.memWrite hin v.toNat).withHost p q o
  | reset q p o _ =>
    obtain ⟨hwf, hinside, hsize, hstatus, hhdr⟩ := resetWith_inv hinv.size_ok
    exact ⟨hwf, hinside, hsize, hstatus, hhdr⟩

/-! ### STATUS, the operands and the fault record over one step -/

/-- Every end of a command that clears BUSY sets DONE (R22, R23). -/
theorem finish_done {s : State} {res : CmdResult} (hbusy : s.status.busy = true)
    (hend : (s.finish res).status.busy = false) : (s.finish res).status.done = true := by
  cases res with
  | complete e => rfl
  | error c => rfl
  | modelFault k => simp [hbusy] at hend

/-- No end of a command clears STICKY (R25). -/
theorem finish_sticky_of_sticky {s : State} (res : CmdResult) (h : s.status.sticky = true) :
    (s.finish res).status.sticky = true := by
  cases res with
  | complete e => exact h
  | error c => rfl
  | modelFault k => exact h

/-- Of the register writes only that of CMD sets BUSY. -/
theorem writeReg_sets_busy {s : State} {r : Reg} {v : Word} (hidle : s.status.busy = false)
    (hset : (s.writeReg r v).status.busy = true) : r = .cmd := by
  cases r with
  | cmd => rfl
  | status => exact absurd (hidle.symm.trans hset) (by decide)
  | _ => exact absurd (hidle.symm.trans hset) (by decide)

/-- Of the register writes only that of STATUS with bit 3 = 1 clears STICKY. -/
theorem writeReg_clears_sticky {s : State} {r : Reg} {v : QWord} (hsticky : s.status.sticky = true)
    (hclear : (s.writeReg r (v.setWidth 32)).status.sticky = false) : r = .status ∧ v.getLsbD 3 = true := by
  cases r with
  | status => simpa [State.writeReg, hsticky] using hclear
  | _ => exact absurd (hsticky.symm.trans hclear) (by decide)

/-- Settles O13: of the six things a step can do, only a register write and a reset clear STICKY. -/
theorem onlyStatusWriteOrResetClearsSticky : Obligations.OnlyStatusWriteOrResetClearsSticky := by
  intro s t hstep hsticky hclear
  cases step_deviceStep hstep with
  | completion q res _ _ _ =>
    exact absurd ((finish_sticky_of_sticky (s := s.withHost _ q _) res hsticky).symm.trans hclear) (by decide)
  | regWrite r v rest p q o hidle hprog =>
    obtain ⟨rfl, hbit⟩ := writeReg_clears_sticky hsticky hclear
    exact .inr ⟨hidle, v, rest, hprog, hbit⟩
  | reset q p o hturn => exact .inl ⟨q, hturn⟩
  | unchanged | hostFault | bufWrite => exact absurd (hsticky.symm.trans hclear) (by decide)

/-- A step that sets BUSY is the host's write of CMD. -/
theorem step_sets_busy {s t : State} (hstep : step s = .next t) (hidle : s.status.busy = false)
    (hset : t.status.busy = true) :
    ∃ v rest, s.program = .access (.write .reg 0x00 .w4 v) :: rest ∧ t.cmd = v.setWidth 32 ∧ t.status.done = false := by
  cases step_deviceStep hstep with
  | completion q res hbusy _ _ => exact absurd (hidle.symm.trans hbusy) (by decide)
  | regWrite r v rest p q o _ hprog =>
    obtain rfl := writeReg_sets_busy hidle hset
    exact ⟨v, rest, hprog, rfl, rfl⟩
  | reset q p o _ => cases hset
  | unchanged | hostFault | bufWrite => exact absurd (hidle.symm.trans hset) (by decide)

/-- A step that clears BUSY is a reset or the engine's completion. -/
theorem step_clears_busy {s t : State} (hstep : step s = .next t) (hbusy : s.status.busy = true)
    (hclear : t.status.busy = false) :
    (∃ rest, s.schedule = .reset :: rest ∧ t.status.done = false) ∨
      (((∃ rest, s.schedule = .engine :: rest) ∨ s.schedule = []) ∧ t.status.done = true) := by
  cases step_deviceStep hstep with
  | completion q res _ hturn _ =>
    exact .inr ⟨hturn.imp_left fun h => ⟨q, h⟩, finish_done (s := s.withHost _ q _) hbusy hclear⟩
  | reset q p o hturn => exact .inl ⟨q, hturn, rfl⟩
  | unchanged | hostFault => exact absurd (hbusy.symm.trans hclear) (by decide)
  | regWrite r v rest p q o hidle _ => exact absurd (hbusy.symm.trans hidle) (by decide)
  | bufWrite x w v p q o hidle _ => exact absurd (hbusy.symm.trans hidle) (by decide)

/-- Settles O14: one lemma for each direction. -/
theorem onlyIssueSetsBusyOnlyCompletionClearsIt : Obligations.OnlyIssueSetsBusyOnlyCompletionClearsIt :=
  ⟨fun _ _ => step_sets_busy, fun _ _ => step_clears_busy⟩

/-- A command that has not ended has written nothing (R95). -/
theorem finish_busy {s : State} {res : CmdResult} (hbusy : (s.finish res).status.busy = true) :
    ∃ k, s.finish res = s.modelFault k := by
  cases res with
  | complete e => cases hbusy
  | error c => cases hbusy
  | modelFault k => exact ⟨k, rfl⟩

/-- Settles O15: while BUSY = 1 a step that is no reset changes nothing, ends a command, or records a fault. -/
theorem latchedCommandAndOperandsAreFixedWhileBusy : Obligations.LatchedCommandAndOperandsAreFixedWhileBusy := by
  intro s t hstep hbusy hreset
  cases step_deviceStep hstep with
  | unchanged | hostFault => exact ⟨⟨rfl, rfl, rfl, rfl, rfl, rfl, rfl, rfl, rfl⟩, fun _ => ⟨rfl, rfl, rfl, rfl⟩⟩
  | completion q res _ _ _ =>
    refine ⟨?_, fun hstill => ?_⟩
    · cases res <;> exact ⟨rfl, rfl, rfl, rfl, rfl, rfl, rfl, rfl, rfl⟩
    · obtain ⟨k, hk⟩ := finish_busy hstill
      rw [hk]
      exact ⟨rfl, rfl, rfl, rfl⟩
  | reset q p o hturn => exact absurd hturn (hreset q)
  | regWrite r v rest p q o hidle _ => exact absurd (hbusy.symm.trans hidle) (by decide)
  | bufWrite x w v p q o hidle _ => exact absurd (hbusy.symm.trans hidle) (by decide)

theorem finish_faults_grow {s : State} (res : CmdResult) {k : FaultKind} (h : s.faults.has k = true) :
    (s.finish res).faults.has k = true := by
  cases res with
  | complete e => exact h
  | error c => exact h
  | modelFault j => exact FaultRecord.has_add_of_has j h

theorem writeReg_faults (s : State) (r : Reg) (v : Word) : (s.writeReg r v).faults = s.faults := by
  cases r <;> rfl

/-- Settles O16: only a model fault writes the record, and it adds to it. -/
theorem faultRecordOnlyGrows : Obligations.FaultRecordOnlyGrows := by
  refine ⟨fun _ => rfl, fun s t k hstep hk => ?_⟩
  cases step_deviceStep hstep with
  | completion q res _ _ _ => exact finish_faults_grow (s := s.withHost _ q _) res hk
  | hostFault f p q o hgrows => exact hgrows k hk
  | regWrite r v _ p q o _ _ => rwa [State.withHost_faults, writeReg_faults]
  | unchanged | bufWrite | reset => exact hk

end Sys2Proof.Machine
end

section
/-! What a command depends on and what it leaves unchanged: the operand table (R70), the frame of every command, and the
two consequences for a command that ended in an error or in a model fault (R95, R105). -/

namespace Sys2Proof.Machine

/-! ### A command's rule reads its operands and BUF alone (R70) -/

/-- The registers in the table's row, BUF and BUF_BYTES decide what the rule answers. -/
theorem runOf_congr {i : Instr} {s t : State} (hops : SameOperands i s t) (hbuf : s.buf = t.buf)
    (hsize : s.bufSize = t.bufSize) : runOf i s = runOf i t := by
  cases s
  cases t
  cases hbuf
  cases hsize
  cases i with
  | nop => rfl
  | merge | qenc | qdec | hparse => obtain ⟨rfl, rfl, rfl⟩ := hops; rfl
  | separate | hbuild | assemble => obtain ⟨rfl, rfl, rfl, rfl⟩ := hops; rfl

/-- What a finished command leaves in the fields it can write comes from those fields and from its result. -/
theorem finish_congr {s t : State} (res : CmdResult) (hbuf : s.buf = t.buf) (hstatus : s.status = t.status)
    (hfaults : s.faults = t.faults) (hres0 : s.res0 = t.res0) (hres1 : s.res1 = t.res1) (hhdr : s.hdr = t.hdr) :
    (s.finish res).buf = (t.finish res).buf ∧ (s.finish res).status = (t.finish res).status ∧
      (s.finish res).faults = (t.finish res).faults ∧ (s.finish res).res0 = (t.finish res).res0 ∧
      (s.finish res).res1 = (t.finish res).res1 ∧ (s.finish res).hdr = (t.finish res).hdr := by
  cases res <;> simp [hbuf, hstatus, hfaults, hres0, hres1, hhdr]

/-- Settles O17: by `runOf_congr` both states finish the same result. -/
theorem commandsReadOnlyTheirOperands : Obligations.CommandsReadOnlyTheirOperands := by
  intro i s₁ s₂ hops hbuf hsize hstatus hfaults hres0 hres1 hhdr
  refine ⟨_, _, exec_eq_finish i s₁, exec_eq_finish i s₂, ?_⟩
  rw [runOf_congr hops hbuf hsize]
  exact finish_congr _ hbuf hstatus hfaults hres0 hres1 hhdr

/-! ### The engine's turn repeated -/

/-- With the same word in CMD and the same registers and BUF the engine's step has the same result. -/
theorem engineResult_congr {s t : State} (hcmd : s.cmd = t.cmd) (hops : ∀ i, SameOperands i s t) (hbuf : s.buf = t.buf)
    (hsize : s.bufSize = t.bufSize) : engineResult s = engineResult t := by
  unfold engineResult
  rw [hcmd]
  cases decode t.cmd with
  | instr i => exact runOf_congr (hops i) hbuf hsize
  | illegal why => rfl

/-- A model fault changes nothing that the engine's step reads. -/
theorem engineResult_withUninitRead (s : State) : engineResult s.withUninitRead = engineResult s :=
  engineResult_congr rfl (fun i => by cases i <;> simp [SameOperands, State.withUninitRead]) rfl rfl

/-- Nor does a device error followed by an issue of the same word. -/
theorem engineResult_reissued (s : State) (e : ErrCode) :
    engineResult ((s.withError e).issue s.cmd) = engineResult s :=
  engineResult_congr rfl (fun i => by cases i <;> simp [SameOperands, State.withError]) rfl rfl

/-- Settles O9: BUSY stays 1 only after UNINIT_READ, and recording it once more changes nothing. -/
theorem modelFaultLeavesEngineStuck : Obligations.ModelFaultLeavesEngineStuck := by
  intro s t hbusy hturn hstill
  rw [engineTurn_busy hbusy] at hturn
  cases hturn
  have hok := engineResult_ok s
  cases hres : engineResult s with
  | complete e => simp [hres] at hstill
  | error c => simp [hres] at hstill
  | modelFault k =>
    rw [hres] at hok
    obtain rfl : k = .uninitRead := hok
    rw [State.finish_modelFault, State.modelFault_uninitRead]
    refine ⟨rfl, ?_⟩
    rw [engineTurn_busy (s := s.withUninitRead) hbusy, engineResult_withUninitRead, hres]
    rfl

/-- A command that ends as `withError e` has the device error `e` as its result. -/
theorem eq_error_of_finish {s : State} {res : CmdResult} {e : ErrCode} (hbusy : s.status.busy = true)
    (h : s.finish res = s.withError e) : res = .error e := by
  have hstatus := congrArg State.status h
  cases res with
  | complete eff => simpa [State.withError] using congrArg Status.err hstatus
  | error c => exact congrArg CmdResult.error (congrArg Status.errcode hstatus)
  | modelFault k => simpa [State.withError, hbusy] using congrArg Status.busy hstatus

/-- Settles O10: the same result, finished in a state that differs in STATUS alone. -/
theorem reissuedCommandReportsSameError : Obligations.ReissuedCommandReportsSameError := by
  intro s e hbusy hturn
  rw [engineTurn_busy hbusy] at hturn
  have hres := eq_error_of_finish hbusy (Host.Outcome.next.inj hturn)
  rw [engineTurn_busy (s := (s.withError e).issue s.cmd) rfl, engineResult_reissued, hres]
  rfl

/-! ### What a command stores -/

/-- A success of command `i` stores nothing, or `storedBytes i` bytes from DST on, and gives no header unless it is
HPARSE. -/
structure StoresAtDst (i : Instr) (s : State) (e : Effect) : Prop where
  place : e.bytes = [] ∨ e.dst = s.dstVal ∧ e.bytes.length = storedBytes i s
  hdr : i ≠ .hparse → e.hdr = none

theorem runMerge_storesAtDst {s : State} {e : Effect} (h : runMerge s = .complete e) : StoresAtDst .merge s e := by
  unfold runMerge at h
  simp only at h
  split at h
  · cases h
    exact ⟨.inl rfl, fun _ => rfl⟩
  · split at h
    · cases h
    · split at h
      · cases h
      · rename_i chans hchans
        have hlen : chans.length = s.nchVal := by rw [readDescriptors_length hchans, elemAddrs_length]
        unfold mergeChannels at h
        simp only at h
        split_ifs at h
        split at h
        · cases h
        · rename_i vs hvs
          cases h
          refine ⟨.inr ⟨rfl, ?_⟩, fun _ => rfl⟩
          simp only [storedBytes, hchans]
          rw [arrayBytes_length, Memory.readAll_length hvs, mergeAddrs_length, hlen, Nat.mul_comm _ s.nchVal,
            Nat.mul_assoc]

theorem runSeparate_storesAtDst {s : State} {e : Effect} (h : runSeparate s = .complete e) :
    StoresAtDst .separate s e := by
  unfold runSeparate at h
  simp only at h
  split_ifs at h
  split at h
  · cases h
  · rename_i vs hvs
    cases h
    refine ⟨.inr ⟨rfl, ?_⟩, fun _ => rfl⟩
    rw [arrayBytes_length, Memory.readAll_length hvs, separateAddrs_length, storedBytes, Nat.mul_assoc]

theorem runQenc_storesAtDst {s : State} {e : Effect} (h : runQenc s = .complete e) : StoresAtDst .qenc s e := by
  unfold runQenc at h
  simp only at h
  split_ifs at h
  split at h
  · cases h
  · rename_i xs hxs
    split at h
    · cases h
    · rename_i qs hqs
      cases h
      refine ⟨.inr ⟨rfl, ?_⟩, fun _ => rfl⟩
      rw [arrayBytes_length, List.length_map, quantizeAll_length hqs, Memory.readAll_length hxs, elemAddrs_length,
        storedBytes]

theorem runQdec_storesAtDst {s : State} {e : Effect} (h : runQdec s = .complete e) : StoresAtDst .qdec s e := by
  unfold runQdec at h
  simp only at h
  split_ifs at h
  split at h
  · cases h
  · rename_i vs hvs
    cases h
    refine ⟨.inr ⟨rfl, ?_⟩, fun _ => rfl⟩
    rw [arrayBytes_length, List.length_map, Memory.readAll_length hvs, elemAddrs_length, storedBytes]

theorem runHbuild_storesAtDst {s : State} {e : Effect} (h : runHbuild s = .complete e) : StoresAtDst .hbuild s e := by
  unfold runHbuild at h
  simp only at h
  split_ifs at h
  cases h
  exact ⟨.inr ⟨rfl, headerBytes_length _ _ _⟩, fun _ => rfl⟩

theorem runAssemble_storesAtDst {s : State} {e : Effect} (h : runAssemble s = .complete e) :
    StoresAtDst .assemble s e := by
  unfold runAssemble at h
  simp only at h
  split_ifs at h
  split at h
  · rename_i hs ps hhs hps
    cases h
    refine ⟨.inr ⟨rfl, ?_⟩, fun _ => rfl⟩
    rw [List.length_append, Memory.readBytes_length hhs, Memory.readBytes_length hps, storedBytes]
  · cases h

theorem runHparse_storesAtDst {s : State} {e : Effect} (h : runHparse s = .complete e) : StoresAtDst .hparse s e := by
  unfold runHparse at h
  simp only at h
  split_ifs at h
  split at h
  · cases h
  · split_ifs at h
    cases h
    exact ⟨.inl rfl, fun hne => absurd rfl hne⟩

theorem runOf_storesAtDst {i : Instr} {s : State} {e : Effect} (h : runOf i s = .complete e) : StoresAtDst i s e := by
  cases i with
  | nop => cases h; exact ⟨.inl rfl, fun _ => rfl⟩
  | merge => exact runMerge_storesAtDst h
  | separate => exact runSeparate_storesAtDst h
  | qenc => exact runQenc_storesAtDst h
  | qdec => exact runQdec_storesAtDst h
  | hbuild => exact runHbuild_storesAtDst h
  | assemble => exact runAssemble_storesAtDst h
  | hparse => exact runHparse_storesAtDst h

/-! ### The frame -/

theorem State.deviceError_sameSetup (s : State) (c : ErrCode) : SameSetup s (s.deviceError c) := by
  constructor <;> rfl

/-- The fault record apart, a model fault changes nothing. -/
theorem State.modelFault_sameSetup (s : State) (k : FaultKind) :
    SameSetup s { s.modelFault k with faults := s.faults } := by
  constructor <;> rfl

theorem State.complete_sameOutside (s : State) (e : Effect) :
    SameOutside s (s.complete e) e.dst e.bytes.length := by
  rintro x (h | h)
  · exact Memory.read_writeBytes_of_lt _ _ _ h
  · exact Memory.read_writeBytes_of_ge _ _ _ h

theorem StoresAtDst.sameOutside {i : Instr} {s : State} {e : Effect} (h : StoresAtDst i s e) :
    SameOutside s (s.complete e) s.dstVal (storedBytes i s) := by
  rcases h.place with hnil | ⟨hdst, hlen⟩
  · intro x _
    rw [State.complete_buf, hnil]
    rfl
  · rw [← hdst, ← hlen]
    exact s.complete_sameOutside e

/-- Settles O18: a success has the frame of `StoresAtDst`; an error and a model fault change STATUS or the fault record
alone. -/
theorem frameOfEveryCommand : Obligations.FrameOfEveryCommand := by
  intro i s t hexec
  rw [exec_eq_finish] at hexec
  cases hexec
  have hok := runOf_ok i s
  cases hres : runOf i s with
  | complete e =>
    have hstores := runOf_storesAtDst hres
    refine ⟨s.complete_sameSetup e, fun hne => ?_, .inl rfl, hstores.sameOutside⟩
    rw [State.finish_complete, State.complete_hdr, hstores.hdr hne, Option.getD_none]
  | error c => exact ⟨s.deviceError_sameSetup c, fun _ => rfl, .inl rfl, fun _ _ => rfl⟩
  | modelFault k =>
    rw [hres] at hok
    obtain rfl : k = .uninitRead := hok
    exact ⟨s.modelFault_sameSetup _, fun _ => rfl, .inr rfl, fun _ _ => rfl⟩

end Sys2Proof.Machine
end

section
/-! The host's accesses and whose turn it is: the layout of STATUS (R21), register and BUF accesses while BUSY = 0 (R49
to R51), accesses while BUSY = 1 (R113), `wait` (R76), and the turns of host and engine. -/

namespace Sys2Proof.Machine

/-! ### Whose turn it is -/

theorem engineTurn_exec {s : State} {i : Instr} (hbusy : s.status.busy = true) (hdec : decode s.cmd = .instr i) :
    engineTurn s = exec i s := by
  rw [engineTurn, if_pos hbusy, engineStep, hdec]

theorem step_engine {s : State} {rest : List Turn} (h : s.schedule = .engine :: rest) :
    step s = engineTurn { s with schedule := rest } := by
  simp only [step, h]

theorem step_busy {s : State} (h : s.schedule = []) (hbusy : s.status.busy = true) : step s = engineTurn s := by
  simp [step, h, hbusy]

/-- Settles O5: one clause for the engine's turn, one for an access of the host's, one for a host with nothing left. -/
theorem stepRunsIssuedCommand : Obligations.StepRunsIssuedCommand := by
  refine ⟨fun s i hbusy hdec _ => ⟨fun rest hturn => ?_, fun hempty => ?_⟩,
    fun s a prog hprog => ⟨fun rest hturn => ?_, fun hempty hidle => ?_⟩,
    fun s hprog => ⟨fun rest hturn => ?_, fun hempty hidle => ?_⟩⟩
  · rw [step_engine hturn]
    exact engineTurn_exec hbusy hdec
  · rw [step_busy hempty hbusy, engineTurn_exec hbusy hdec]
  · rw [step_host hturn, hostTurn_access (s := { s with schedule := rest }) hprog]
  · rw [step_idle hempty hidle, hostTurn_access hprog]
  · rw [step_host hturn, hostTurn_done (s := { s with schedule := rest }) hprog]
  · rw [step_idle hempty hidle, hostTurn_done hprog]

/-! ### `wait` (R76) -/

theorem hostTurn_wait_busy {s : State} {prog : List HostOp} (hprog : s.program = .wait :: prog)
    (hbusy : s.status.busy = true) : s.hostTurn = { s with returned := some ((s.readReg .status).setWidth 64) } := by
  simp [State.hostTurn, hprog, hbusy, State.hostReadReg, Reg.busyReadable]

theorem hostTurn_wait_idle {s : State} {prog : List HostOp} (hprog : s.program = .wait :: prog)
    (hidle : s.status.busy = false) :
    s.hostTurn = { s with program := prog, returned := some ((s.readReg .status).setWidth 64) } := by
  simp [State.hostTurn, hprog, hidle, State.hostReadReg, State.readReg]

/-- Settles O27: a step that is the host's turn is `hostTurn` on the state with the turn taken off the schedule. -/
theorem waitPollsUntilNotBusy : Obligations.WaitPollsUntilNotBusy := by
  refine fun s prog hprog => ⟨fun hbusy => ⟨hostTurn_wait_busy hprog hbusy, fun rest hturn => ?_⟩,
    fun hidle => ⟨hostTurn_wait_idle hprog hidle, fun rest hturn => ?_, fun hempty => ?_⟩⟩
  · rw [step_host hturn, hostTurn_wait_busy (s := { s with schedule := rest }) hprog hbusy]
    rfl
  · rw [step_host hturn, hostTurn_wait_idle (s := { s with schedule := rest }) hprog hidle]
    rfl
  · rw [step_idle hempty hidle, hostTurn_wait_idle hprog hidle]

/-! ### STATUS and the opcode map, bit by bit -/

/-- The four flag bits of STATUS as the host reads it (R21), and its reserved bits, which read as 0 (R37). -/
theorem Status.word_layout (st : Status) :
    st.word.getLsbD 0 = st.busy ∧ st.word.getLsbD 1 = st.done ∧ st.word.getLsbD 2 = st.err ∧
      st.word.getLsbD 3 = st.sticky ∧ st.word.extractLsb' 4 4 = 0 ∧ st.word.extractLsb' 12 20 = 0 := by
  obtain ⟨busy, done, err, sticky, errcode⟩ := st
  cases errcode <;> revert busy done err sticky <;> decide

/-- Settles O11: the flags, the reserved bits, ERRCODE's field and the numbers of R100. -/
theorem statusWordLayout : Obligations.StatusWordLayout := by
  refine ⟨fun s => ?_, rfl, rfl, rfl, rfl, rfl, rfl, rfl, rfl, rfl⟩
  obtain ⟨hbusy, hdone, herr, hsticky, hlow, hhigh⟩ := s.status.word_layout
  exact ⟨hbusy, hdone, herr, hsticky, hlow, readReg_status_errcode s, hhigh⟩

/-- Settles O3: eleven words, decoded. -/
theorem opcodeMapWords : Obligations.OpcodeMapWords := by
  unfold Obligations.OpcodeMapWords
  decide

/-! ### Register accesses -/

/-- R113's list of registers, as the model's own predicate. -/
theorem mem_readableWhileBusy {r : Reg} : r ∈ readableWhileBusy ↔ r.busyReadable = true := by
  cases r <;> simp [readableWhileBusy, Reg.busyReadable]

/-- Settles O21: the offset names the register, and neither condition lets the read be a hazard. -/
theorem registerReadHasNoSideEffect : Obligations.RegisterReadHasNoSideEffect := by
  intro s r hallowed
  have hlegal : (s.status.busy && !r.busyReadable) = false := by
    rcases hallowed with hidle | hmem
    · simp [hidle]
    · simp [mem_readableWhileBusy.mp hmem]
  simp [State.hostAccess, State.hostReadReg, hlegal]

/-- Reading NCH back gives the low 16 bits of what was written (R30, R37). -/
theorem setWidth_sixteen_eq_and (v : QWord) : (v.setWidth 16).setWidth 32 = v.setWidth 32 &&& 0x0000FFFF := by
  apply BitVec.eq_of_toNat_eq
  rw [BitVec.toNat_and, show (0x0000FFFF : Word).toNat = 2 ^ 16 - 1 from rfl, Nat.and_two_pow_sub_one_eq_mod]
  simp only [BitVec.toNat_setWidth]
  omega

/-- Reading CTRL back gives bit 0 of what was written (R27, R37). -/
theorem ofBool_getLsbD_zero_eq_and (v : QWord) :
    (0#31 ++ BitVec.ofBool (v.getLsbD 0) : BitVec (31 + 1)) = v.setWidth 32 &&& 0x00000001 := by
  apply BitVec.eq_of_getLsbD_eq
  intro i hi
  rw [BitVec.getLsbD_append]
  by_cases h : i = 0 <;> simp [h]

/-- NCH stores the low 16 bits of what is written (R30). -/
theorem extractLsb'_setWidth_low (v : QWord) : (v.setWidth 32).extractLsb' 0 16 = v.setWidth 16 := by
  simp [← BitVec.setWidth_eq_extractLsb']

theorem hostAccess_writeNch_idle {s : State} (hidle : s.status.busy = false) (v : QWord) :
    s.hostAccess (.write .reg 0x1C .w4 v) = { s with nch := v.setWidth 16, returned := none } := by
  rw [← extractLsb'_setWidth_low]
  exact hostAccess_writeReg_idle hidle .nch v

theorem hostAccess_writeCtrl_idle {s : State} (hidle : s.status.busy = false) (v : QWord) :
    s.hostAccess (.write .reg 0x08 .w4 v) = { s with strict := v.getLsbD 0, returned := none } := by
  have hbit : (v.setWidth 32).getLsbD 0 = v.getLsbD 0 := by simp
  rw [← hbit]
  exact hostAccess_writeReg_idle hidle .ctrl v

/-- Settles O19: seven uses of the rule for a register write while BUSY = 0, and what NCH and CTRL then read as. -/
theorem operandRegisterWrites : Obligations.OperandRegisterWrites := by
  intro s v hidle
  refine ⟨hostAccess_writeReg_idle hidle .src v, hostAccess_writeReg_idle hidle .src2 v,
    hostAccess_writeReg_idle hidle .dst v, hostAccess_writeReg_idle hidle .count v,
    hostAccess_writeReg_idle hidle .rate v, hostAccess_writeNch_idle hidle v, hostAccess_writeCtrl_idle hidle v, ?_, ?_⟩
  · rw [hostAccess_writeNch_idle hidle]
    exact setWidth_sixteen_eq_and v
  · rw [hostAccess_writeCtrl_idle hidle]
    exact ofBool_getLsbD_zero_eq_and v

/-- Every assigned offset is a multiple of 4 below 0x74, and none is 0x34, 0x38 or 0x3C (R19). -/
theorem Reg.offset_assigned (r : Reg) :
    r.offset % 4 = 0 ∧ r.offset ≠ 0x34 ∧ r.offset ≠ 0x38 ∧ r.offset ≠ 0x3C ∧ r.offset < 0x74 := by
  cases r with
  | hdr k =>
    have hk := k.isLt
    simp only [Reg.offset]
    omega
  | _ => decide

/-- R49's illegal REG accesses name no register. -/
theorem regTarget_eq_none {off : Nat} {w : Width}
    (h : w ≠ .w4 ∨ off % 4 ≠ 0 ∨ off = 0x34 ∨ off = 0x38 ∨ off = 0x3C ∨ 0x74 ≤ off) : regTarget off w = none := by
  by_contra hsome
  obtain ⟨r, hr⟩ := Option.ne_none_iff_exists'.mp hsome
  obtain ⟨rfl, rfl⟩ := regTarget_eq_some hr
  have hassigned := r.offset_assigned
  rcases h with h | h
  · exact h rfl
  · omega

/-- An access that R49 or R50 forbids records BUS_ERROR alone while BUSY = 0. -/
theorem accessFault_true_idle {s : State} (hidle : s.status.busy = false) :
    s.accessFault true = { s with faults := { s.faults with busError := true }, returned := none } := by
  simp [State.accessFault, hidle]

/-- Settles O22: such an access names no register, so it is the fault of R49. -/
theorem illegalRegAccessIsBusError : Obligations.IllegalRegAccessIsBusError := by
  intro s off w v hidle hbad
  rw [← accessFault_true_idle hidle]
  simp [State.hostAccess, regTarget_eq_none hbad]

/-! ### BUF accesses -/

/-- Settles O23: the range check comes first, so it is the fault of R50. -/
theorem bufAccessOutsideIsBusError : Obligations.BufAccessOutsideIsBusError := by
  intro s a w v hidle hout
  rw [← accessFault_true_idle hidle]
  simp [State.hostAccess, Nat.not_le.mpr hout]

theorem hostAccess_writeBuf_idle {s : State} {a : Nat} {w : Width} (hidle : s.status.busy = false)
    (hin : a + w.bytes ≤ s.bufBytes) (v : QWord) :
    s.hostAccess (.write .buf a w v) = { s with buf := s.buf.memWrite a w.bytes v.toNat, returned := none } := by
  simp [State.hostAccess, State.hostWriteBuf, hidle, hin]

/-- A BUF read inside BUF whose bytes are written returns their integer (R50). -/
theorem hostAccess_readBuf_some {s : State} {a x : Nat} {w : Width} (hidle : s.status.busy = false)
    (hin : a + w.bytes ≤ s.bufBytes) (hread : s.buf.memRead a w.bytes = some x) :
    s.hostAccess (.read .buf a w) = { s with returned := some (BitVec.ofNat 64 x) } := by
  simp [State.hostAccess, State.hostReadBuf, hidle, hin, hread]

/-- A BUF read inside BUF that covers an unwritten byte is UNINIT_READ (R51). -/
theorem hostAccess_readBuf_none {s : State} {a : Nat} {w : Width} (hidle : s.status.busy = false)
    (hin : a + w.bytes ≤ s.bufBytes) (hread : s.buf.memRead a w.bytes = none) :
    s.hostAccess (.read .buf a w) = { s.withUninitRead with returned := none } := by
  simp [State.hostAccess, State.hostReadBuf, hidle, hin, hread, State.modelFault, State.withUninitRead, FaultRecord.add]

/-- Byte `k` of a little-endian integer (R9). -/
theorem leBytes_getElem (n v k : Nat) (hk : k < (leBytes n v).length) :
    (leBytes n v)[k] = BitVec.ofNat 8 (v / 256 ^ k) := by
  induction n generalizing v k with
  | zero => simp at hk
  | succ n ih =>
    cases k with
    | zero => simp [leBytes]
    | succ k => simp [leBytes, ih, Nat.div_div_eq_div_mul, Nat.pow_succ']

theorem ofNat_div_eq_extractLsb' (v : QWord) (k : Nat) :
    BitVec.ofNat 8 (v.toNat / 256 ^ k) = v.extractLsb' (8 * k) 8 := by
  apply BitVec.eq_of_toNat_eq
  rw [BitVec.extractLsb'_toNat, Nat.shiftRight_eq_div_pow, BitVec.toNat_ofNat, Nat.pow_mul]

/-- What stands at the bytes that a write of `n` bytes covers. -/
theorem Memory.read_memWrite_at (m : Memory) (a n v : Nat) {k : Nat} (hk : k < n) :
    (m.memWrite a n v).read (a + k) = some (BitVec.ofNat 8 (v / 256 ^ k)) := by
  rw [Memory.memWrite, Memory.read_writeBytes_at m a _ (by simpa using hk), leBytes_getElem]

/-- A write of `n` bytes changes no other byte. -/
theorem Memory.read_memWrite_outside (m : Memory) (a n v : Nat) {x : Nat} (hx : x < a ∨ a + n ≤ x) :
    (m.memWrite a n v).read x = m.read x := by
  rcases hx with hx | hx
  · exact Memory.read_writeBytes_of_lt m a _ hx
  · exact Memory.read_writeBytes_of_ge m a _ (by rwa [leBytes_length])

/-- Settles O24: the four clauses are laws of `memWrite`, the last one `memRead_memWrite`. -/
theorem bufWriteReadsBackLittleEndian : Obligations.BufWriteReadsBackLittleEndian := by
  intro s a w v hidle hin
  have hread := Memory.memRead_memWrite s.buf a w.bytes v.toNat
  rw [hostAccess_writeBuf_idle hidle hin]
  refine ⟨fun k hk => ?_, fun x => Memory.read_memWrite_outside _ _ _ _, ⟨_, rfl⟩, ?_⟩
  · rw [← ofNat_div_eq_extractLsb']
    exact Memory.read_memWrite_at _ _ _ _ hk
  · rw [hostAccess_readBuf_some (s := { s with buf := s.buf.memWrite a w.bytes v.toNat, returned := none }) hidle hin
      hread, Nat.pow_mul]

/-- Settles O25: an unwritten byte makes the read fault, and every byte a write covers reads as some value. -/
theorem unwrittenHostReadIsUninitRead : Obligations.UnwrittenHostReadIsUninitRead := by
  refine fun s a w hidle hin => ⟨fun ⟨k, hk, hnone⟩ => hostAccess_readBuf_none hidle hin ?_, fun v k hk => ?_⟩
  · rw [← Option.not_isSome_iff_eq_none, Memory.memRead_isSome]
    exact fun hall => by simpa [hnone] using hall k hk
  · rw [hostAccess_writeBuf_idle hidle hin]
    simp [Memory.read_memWrite_at s.buf a w.bytes v.toNat hk]

/-! ### Accesses while BUSY = 1 (R113) -/

/-- Settles O26: `hostAccess_busy` leaves a fault or a register read that R113 lists. -/
theorem accessWhileBusyIsHazard : Obligations.AccessWhileBusyIsHazard := by
  intro s a hbusy hnone
  rcases hostAccess_busy a hbusy with hfault | ⟨r, hr, ha, _⟩
  · rw [hfault]
    simp [State.accessFault, hbusy]
  · exact absurd ha (hnone r (mem_readableWhileBusy.mpr hr))

end Sys2Proof.Machine
end

section
/-! MERGE and SEPARATE, one at a time: what each stores where no check fails, and which check decides where one does
(R78, R79, R102). -/

namespace Sys2Proof.Machine

/-! ### Reads that meet an unwritten byte (R58) -/

theorem State.exists_unwritten {s : State} {a n : Nat} (h : ¬ s.written a n) : ∃ k < n, s.buf.read (a + k) = none := by
  simpa [State.written] using h

theorem Memory.memRead_eq_none {m : Memory} {a n x : Nat} (hx : m.read x = none) (hlo : a ≤ x) (hhi : x < a + n) :
    m.memRead a n = none := by
  rw [← Option.not_isSome_iff_eq_none, Memory.memRead_isSome]
  intro hall
  have hread := hall (x - a) (by omega)
  rw [Nat.add_sub_cancel' hlo, hx] at hread
  cases hread

/-- One element with an unwritten byte makes the whole list of reads fault. -/
theorem Memory.readAll_eq_none {m : Memory} {w a x : Nat} {as : List Nat} (hx : m.read x = none) (ha : a ∈ as)
    (hlo : a ≤ x) (hhi : x < a + w) : m.readAll w as = none := by
  rw [← Option.not_isSome_iff_eq_none, Memory.readAll_isSome]
  intro hall
  have hread := hall a ha
  rw [Memory.memRead_eq_none hx hlo hhi] at hread
  cases hread

/-- An array with an unwritten byte cannot be read. -/
theorem State.readAll_elemAddrs_eq_none {s : State} {a w n : Nat} (hw : 0 < w) (h : ¬ s.written a (w * n)) :
    s.buf.readAll w (elemAddrs a w n) = none := by
  obtain ⟨k, hk, hnone⟩ := State.exists_unwritten h
  have hdiv := Nat.div_add_mod k w
  have hmod := Nat.mod_lt k hw
  exact Memory.readAll_eq_none hnone (mem_elemAddrs.mpr ⟨k / w, Nat.div_lt_of_lt_mul hk, rfl⟩) (by omega) (by omega)

/-- A command that stores an array leaves every byte outside it as it was. -/
theorem State.complete_array_sameOutside (s : State) {w d N r0 r1 : Nat} {vs : List Nat} (hlen : w * vs.length = N) :
    SameOutside s
      (s.complete { dst := d, bytes := arrayBytes w vs, hdr := none, res0 := r0, res1 := r1 }) d N := by
  have h := s.complete_sameOutside { dst := d, bytes := arrayBytes w vs, hdr := none, res0 := r0, res1 := r1 }
  rwa [arrayBytes_length, hlen] at h

/-! ### MERGE's results -/

/-- Settles O29: the empty completion. -/
theorem mergeOfNoChannelsIsEmpty : Obligations.MergeOfNoChannelsIsEmpty := by
  intro s hn
  rw [exec_eq_finish, runOf, runMerge, if_pos hn, State.finish_complete, State.complete_empty]

/-- Settles O30: `MergeReady.exec_eq` says what is stored, `memRead_copied` where each sample then stands. -/
theorem mergeInterleavesChannels : Obligations.MergeInterleavesChannels := by
  intro s base len L hn htable hchans hshortest hout htableApart hchansApart hsamples
  have ready : MergeReady s base len L :=
    ⟨hn, htable, hchans, hshortest, hout, htableApart, hchansApart, hsamples⟩
  obtain ⟨vs, hvs, hmerge⟩ := ready.exec_eq
  have hfit : s.nchVal * L < 2 ^ 32 := State.inBuf_elems_lt (by rwa [← Nat.mul_assoc])
  have hLfit : L < 2 ^ 32 := (Nat.le_mul_of_pos_left L hn).trans_lt hfit
  have hlen : 8 * vs.length = 8 * s.nchVal * L := by
    simp [Memory.readAll_length hvs, Nat.mul_comm L, Nat.mul_assoc]
  exact ⟨_, hmerge, s.complete_endsInSuccess _, s.complete_sameSetup _, rfl, Nat.mod_eq_of_lt hfit,
    Nat.mod_eq_of_lt hLfit, fun c hc k hk => Memory.memRead_copied hvs (mergeAddrs_table hk hc),
    s.complete_array_sameOutside hlen⟩

/-! ### MERGE's checks -/

/-- A descriptor with an unwritten byte makes the reading of the table fault. -/
theorem readDescriptors_eq_none {m : Memory} {d x : Nat} {ds : List Nat} (hx : m.read x = none) (hd : d ∈ ds)
    (hlo : d ≤ x) (hhi : x < d + 8) : readDescriptors m ds = none := by
  induction ds with
  | nil => simp at hd
  | cons e ds ih =>
    rcases List.mem_cons.mp hd with rfl | hd
    · have hfault : readDescriptor m d = none := by
        rcases Nat.lt_or_ge x (d + 4) with hbase | hlen
        · simp only [readDescriptor, Memory.memRead_eq_none hx hlo hbase]
        · rw [readDescriptor, Memory.memRead_eq_none (a := d + 4) (n := 4) hx hlen (by omega)]
          cases m.memRead d 4 <;> rfl
      simp only [readDescriptors, hfault]
    · rw [readDescriptors, ih hd]
      cases readDescriptor m e <;> rfl

theorem forall_channelTable {base len : Nat → Nat} {n : Nat} {P : Channel → Prop} :
    (∀ ch ∈ channelTable base len n, P ch) ↔ ∀ c < n, P (base c, len c) := by
  simp [channelTable]

theorem exists_channelTable {base len : Nat → Nat} {n : Nat} {P : Channel → Prop} :
    (∃ ch ∈ channelTable base len n, P ch) ↔ ∃ c < n, P (base c, len c) := by
  simp [channelTable]

theorem exec_merge_table_range {s : State} (hn : 0 < s.nchVal) (h : ¬ s.inBuf s.srcVal (8 * s.nchVal)) :
    exec .merge s = .next (s.withError .range) := by
  rw [exec_eq_finish, runOf, runMerge, if_neg hn.ne', if_pos h]
  rfl

theorem exec_merge_table_uninit {s : State} (hn : 0 < s.nchVal) (hin : s.inBuf s.srcVal (8 * s.nchVal))
    (h : ¬ s.written s.srcVal (8 * s.nchVal)) : exec .merge s = .next s.withUninitRead := by
  obtain ⟨k, hk, hnone⟩ := State.exists_unwritten h
  have hread : readDescriptors s.buf (elemAddrs s.srcVal 8 s.nchVal) = none :=
    readDescriptors_eq_none hnone (mem_elemAddrs.mpr ⟨k / 8, by omega, rfl⟩) (by omega) (by omega)
  rw [exec_eq_finish, runOf, runMerge, if_neg hn.ne', if_neg (not_not.mpr hin), hread]
  rfl

/-- MERGE of a table that lies in BUF and is written. -/
theorem exec_merge_channels {s : State} {base len : Nat → Nat} (hn : 0 < s.nchVal)
    (htable : DescriptorsAre s base len) :
    exec .merge s = .next (s.finish (mergeChannels s (channelTable base len s.nchVal))) := by
  rw [exec_eq_finish, runOf, runMerge, if_neg hn.ne', if_neg (not_not.mpr htable.1), readDescriptors_table htable]

section
variable {s : State} {base len : Nat → Nat} {L : Nat} (hshortest : IsShortest s.nchVal len L)
include hshortest

theorem mergeChannels_output_range (hchans : ∀ c < s.nchVal, s.inBuf (base c) (8 * len c))
    (h : ¬ s.inBuf s.dstVal (8 * s.nchVal * L)) :
    mergeChannels s (channelTable base len s.nchVal) = .error .range := by
  simp only [mergeChannels, minLen_eq hshortest]
  rw [if_neg (not_not.mpr (forall_channelTable.mpr hchans)), if_pos h]

theorem mergeChannels_overlap (hchans : ∀ c < s.nchVal, s.inBuf (base c) (8 * len c))
    (hout : s.inBuf s.dstVal (8 * s.nchVal * L))
    (h : overlaps s.dstVal (8 * s.nchVal * L) s.srcVal (8 * s.nchVal) ∨
      ∃ c < s.nchVal, overlaps s.dstVal (8 * s.nchVal * L) (base c) (8 * len c)) :
    mergeChannels s (channelTable base len s.nchVal) = .error .overlap := by
  simp only [mergeChannels, minLen_eq hshortest]
  rw [if_neg (not_not.mpr (forall_channelTable.mpr hchans)), if_neg (not_not.mpr hout)]
  rcases h with h | h
  · rw [if_pos h]
  · rw [if_pos (exists_channelTable.mpr h), ite_self]

/-- The sample with the unwritten byte is read: its frame is one of the first `L`. -/
theorem mergeChannels_uninit (hchans : ∀ c < s.nchVal, s.inBuf (base c) (8 * len c))
    (hout : s.inBuf s.dstVal (8 * s.nchVal * L))
    (htableApart : ¬ overlaps s.dstVal (8 * s.nchVal * L) s.srcVal (8 * s.nchVal))
    (hchansApart : ∀ c < s.nchVal, ¬ overlaps s.dstVal (8 * s.nchVal * L) (base c) (8 * len c))
    (h : ∃ c < s.nchVal, ¬ s.written (base c) (8 * L)) :
    mergeChannels s (channelTable base len s.nchVal) = .modelFault .uninitRead := by
  obtain ⟨c, hc, hc'⟩ := h
  obtain ⟨k, hk, hnone⟩ := State.exists_unwritten hc'
  have hread : s.buf.readAll 8 (mergeAddrs (channelTable base len s.nchVal) L) = none :=
    Memory.readAll_eq_none hnone
      (mem_mergeAddrs.mpr ⟨k / 8, by omega, _, mem_channelTable.mpr ⟨c, hc, rfl⟩, rfl⟩) (by dsimp only; omega)
      (by dsimp only; omega)
  have hapart : ¬ ∃ ch ∈ channelTable base len s.nchVal,
      overlaps s.dstVal (8 * s.nchVal * L) ch.1 (8 * ch.2) := fun hmeets => by
    obtain ⟨c, hc, hmeets⟩ := exists_channelTable.mp hmeets
    exact hchansApart c hc hmeets
  simp only [mergeChannels, minLen_eq hshortest]
  rw [if_neg (not_not.mpr (forall_channelTable.mpr hchans)), if_neg (not_not.mpr hout), if_neg htableApart,
    if_neg hapart, hread]

end

theorem mergeChannels_channel_range {s : State} {base len : Nat → Nat}
    (h : ∃ c < s.nchVal, ¬ s.inBuf (base c) (8 * len c)) :
    mergeChannels s (channelTable base len s.nchVal) = .error .range := by
  have hnot : ¬ ∀ ch ∈ channelTable base len s.nchVal, s.inBuf ch.1 (8 * ch.2) := fun hall => by
    obtain ⟨c, hc, hout⟩ := h
    exact hout (forall_channelTable.mp hall c hc)
  simp only [mergeChannels]
  rw [if_pos hnot]

/-- Settles O31: one lemma per check, each with the earlier checks passed. -/
theorem mergeOrderOfChecks : Obligations.MergeOrderOfChecks := by
  intro s hn
  refine ⟨exec_merge_table_range hn, exec_merge_table_uninit hn, fun base len L htable hshortest => ?_⟩
  rw [exec_merge_channels hn htable]
  refine ⟨fun h => ?_, fun hchans => ⟨fun h => ?_, fun hout => ⟨fun h => ?_, fun ⟨htableApart, hchansApart⟩ h => ?_⟩⟩⟩
  · rw [mergeChannels_channel_range h]
    rfl
  · rw [mergeChannels_output_range hshortest hchans h]
    rfl
  · rw [mergeChannels_overlap hshortest hchans hout h]
    rfl
  · rw [mergeChannels_uninit hshortest hchans hout htableApart hchansApart h]
    rfl

/-! ### SEPARATE -/

/-- Settles O32: `exec_separate_eq` says what is stored, `memRead_copied` where each sample then stands. -/
theorem separateSplitsChannels : Obligations.SeparateSplitsChannels := by
  intro s hn hin hout hapart hwritten
  obtain ⟨vs, hvs, hsep⟩ := exec_separate_eq hn rfl hin hout hapart hwritten
  have hcount : s.countVal < 2 ^ 32 := s.count.isLt
  have hquot : s.countVal / s.nchVal < 2 ^ 32 := (Nat.div_le_self _ _).trans_lt hcount
  have hrest : s.countVal % s.nchVal < 2 ^ 32 := (Nat.mod_le _ _).trans_lt hcount
  have hlen : 8 * vs.length = 8 * s.nchVal * (s.countVal / s.nchVal) := by
    rw [Memory.readAll_length hvs, separateAddrs_length, Nat.mul_assoc]
  refine ⟨_, hsep, s.complete_endsInSuccess _, s.complete_sameSetup _, rfl, Nat.mod_eq_of_lt hquot,
    Nat.mod_eq_of_lt hrest, fun c hc k hk => ?_, s.complete_array_sameOutside hlen⟩
  obtain ⟨v, hsample, hsplit⟩ := Memory.memRead_copied (d := s.dstVal) hvs (separateAddrs_getElem hk hc)
  rw [Nat.mul_add, ← Nat.mul_assoc, ← Nat.add_assoc] at hsplit
  exact ⟨v, hsample, hsplit⟩

/-- A sample of the whole frames with an unwritten byte is one that SEPARATE reads. -/
theorem State.readAll_separateAddrs_eq_none {s : State} {src n L : Nat} (hn : 0 < n)
    (h : ¬ s.written src (8 * (n * L))) : s.buf.readAll 8 (separateAddrs src n L) = none := by
  obtain ⟨k, hk, hnone⟩ := State.exists_unwritten h
  have hframe : k / 8 / n < L := Nat.div_lt_of_lt_mul (Nat.div_lt_of_lt_mul hk)
  have helem : k / 8 / n * n + k / 8 % n = k / 8 := Nat.div_add_mod' _ _
  exact Memory.readAll_eq_none hnone (mem_separateAddrs.mpr ⟨k / 8 % n, Nat.mod_lt _ hn, k / 8 / n, hframe, rfl⟩)
    (by omega) (by omega)

/-- Settles O33: each clause runs the rule up to the check that decides. -/
theorem separateOrderOfChecks : Obligations.SeparateOrderOfChecks := by
  intro s
  simp only [exec_eq_finish, runOf, runSeparate]
  refine ⟨fun h => ?_, fun hn => ⟨fun h => ?_, fun hin => ⟨fun h => ?_, fun hout => ⟨fun h => ?_, fun hapart h => ?_⟩⟩⟩⟩
  · rw [if_pos h]
    rfl
  · rw [if_neg hn.ne', if_pos h]
    rfl
  · rw [if_neg hn.ne', if_neg (not_not.mpr hin), if_pos h]
    rfl
  · rw [if_neg hn.ne', if_neg (not_not.mpr hin), if_neg (not_not.mpr hout), if_pos h]
    rfl
  · rw [if_neg hn.ne', if_neg (not_not.mpr hin), if_neg (not_not.mpr hout), if_neg hapart,
      State.readAll_separateAddrs_eq_none hn h]
    rfl

end Sys2Proof.Machine
end

section
/-! HBUILD, ASSEMBLE and HPARSE, one at a time: what each stores or reads where no check fails, and which check decides
where one does (R88 to R91, R102). -/

namespace Sys2Proof.Machine

/-! ### Parts of a byte sequence in BUF -/

theorem State.written.exists_readBytes {s : State} {a n : Nat} (h : s.written a n) :
    ∃ bs, s.buf.readBytes a n = some bs :=
  Option.isSome_iff_exists.mp (Memory.readBytes_isSome.mpr h)

theorem State.readBytes_eq_none {s : State} {a n : Nat} (h : ¬ s.written a n) : s.buf.readBytes a n = none := by
  rw [← Option.not_isSome_iff_eq_none, Memory.readBytes_isSome]
  exact h

/-- A field of a byte sequence that was read is the integer at its place in BUF. -/
theorem Memory.memRead_field {m : Memory} {a N i n : Nat} {bs : List Byte} (hread : m.readBytes a N = some bs)
    (hin : i + n ≤ N) : m.memRead (a + i) n = some (field bs i n) := by
  obtain ⟨rfl, hbytes⟩ := Memory.readBytes_eq_some.mp hread
  have hslice : m.readBytes (a + i) n = some ((bs.drop i).take n) := by
    rw [Memory.readBytes_eq_some]
    refine ⟨by simp; omega, fun k hk => ?_⟩
    have hk' : k < n := (by simpa using hk : k < n ∧ _).1
    rw [Nat.add_assoc, hbytes (i + k) (by omega)]
    simp
  rw [Memory.memRead, hslice, Option.map_some, field]

/-! ### HBUILD -/

/-- A header field that fits its width is read back at its offset (R72). -/
theorem Memory.memRead_headerBytes {m : Memory} {d c n r i k v : Nat}
    (hslice : ((headerBytes c n r).drop i).take k = leBytes k v) (hin : i + k ≤ 44) (hv : v < 256 ^ k) :
    (m.writeBytes d (headerBytes c n r)).memRead (d + i) k = some v := by
  have hself := Memory.readBytes_writeBytes_self m d (headerBytes c n r)
  rw [headerBytes_length] at hself
  rw [Memory.memRead_field hself hin, field, hslice, fromLe_leBytes, Nat.mod_eq_of_lt hv]

/-- The tags as little-endian integers (R72). -/
theorem tags_eq_leBytes : tagRiff = leBytes 4 0x46464952 ∧ tagWave = leBytes 4 0x45564157 ∧
    tagFmt = leBytes 4 0x20746D66 ∧ tagData = leBytes 4 0x61746164 := by decide

/-- Settles O46: `headerBytes_slices` gives the fields, and R89's limits let each fit its width. -/
theorem hbuildWritesHeader : Obligations.HbuildWritesHeader := by
  intro s hin hc hn hr
  have hrate : s.rateVal < 256 ^ 4 := s.rate.isLt
  have hsize : 2 * s.countVal < 256 ^ 4 := by omega
  obtain ⟨hriff, hchunk, hwave, hfmt, hfmtSize, hformat, hchannels, hsampleRate, hbyteRate, halign, hbits, hdata,
    hdataSize⟩ :=
    headerBytes_slices s.countVal s.nchVal s.rateVal
  obtain ⟨riff, wave, fmt, data⟩ := tags_eq_leBytes
  have hout := s.complete_sameOutside
    { dst := s.dstVal, bytes := headerBytes s.countVal s.nchVal s.rateVal, hdr := none, res0 := 44,
      res1 := 2 * s.countVal }
  rw [headerBytes_length] at hout
  refine ⟨_, exec_hbuild_eq hin (not_fieldOverflows_iff.mpr ⟨hc, hn, hr⟩), s.complete_endsInSuccess _,
    s.complete_sameSetup _, rfl, rfl, Nat.mod_eq_of_lt hsize, ?_⟩
  simp only [State.complete_buf]
  exact ⟨Memory.memRead_headerBytes (i := 0) (hriff.trans riff) (by omega) (by omega),
    Memory.memRead_headerBytes hchunk (by omega) (by omega),
    Memory.memRead_headerBytes (hwave.trans wave) (by omega) (by omega),
    Memory.memRead_headerBytes (hfmt.trans fmt) (by omega) (by omega),
    Memory.memRead_headerBytes hfmtSize (by omega) (by omega),
    Memory.memRead_headerBytes hformat (by omega) (by omega),
    Memory.memRead_headerBytes hchannels (by omega) (by omega),
    Memory.memRead_headerBytes hsampleRate (by omega) hrate,
    Memory.memRead_headerBytes hbyteRate (by omega) (by omega),
    Memory.memRead_headerBytes halign (by omega) (by omega),
    Memory.memRead_headerBytes hbits (by omega) (by omega),
    Memory.memRead_headerBytes (hdata.trans data) (by omega) (by omega),
    Memory.memRead_headerBytes hdataSize (by omega) hsize, hout⟩

/-- Settles O47: R89's three limits are the negation of `not_fieldOverflows_iff`. -/
theorem hbuildOrderOfChecks : Obligations.HbuildOrderOfChecks := by
  intro s
  simp only [exec_eq_finish, runOf, runHbuild]
  refine ⟨fun h => ?_, fun hin h => ?_⟩
  · rw [if_pos h]
    rfl
  · have hover : fieldOverflows s.countVal s.nchVal s.rateVal := by
      by_contra hfit
      have hlimits := not_fieldOverflows_iff.mp hfit
      omega
    rw [if_neg (not_not.mpr hin), if_pos hover]
    rfl

/-! ### ASSEMBLE -/

/-- Settles O48: the image is the two byte sequences that were read, one behind the other. -/
theorem assembleConcatenates : Obligations.AssembleConcatenates := by
  intro s hheader hpayload himage hheaderApart hpayloadApart hheaderWritten hpayloadWritten
  obtain ⟨hs, hhs⟩ := hheaderWritten.exists_readBytes
  obtain ⟨ps, hps⟩ := hpayloadWritten.exists_readBytes
  obtain ⟨hslen, hsbytes⟩ := Memory.readBytes_eq_some.mp hhs
  obtain ⟨pslen, psbytes⟩ := Memory.readBytes_eq_some.mp hps
  have hsize : s.bufBytes < 2 ^ 32 := s.bufSize.isLt
  have hend : s.dstVal + (44 + s.countVal) ≤ s.bufBytes := himage.resolve_left (by omega)
  have hfit : 44 + s.countVal < 2 ^ 32 := by omega
  have hout := s.complete_sameOutside
    { dst := s.dstVal, bytes := hs ++ ps, hdr := none, res0 := 44 + s.countVal, res1 := 0 }
  rw [List.length_append, hslen, pslen] at hout
  refine ⟨_, exec_assemble_eq hheader hpayload himage hheaderApart hpayloadApart hhs hps, s.complete_endsInSuccess _,
    s.complete_sameSetup _, rfl, Nat.mod_eq_of_lt hfit, rfl, fun k hk => ?_, fun k hk => ?_, hout⟩
  · rw [State.complete_buf, Memory.read_writeBytes_at _ _ _ (by rw [List.length_append]; omega), hsbytes k (by omega),
      List.getElem_append_left]
  · rw [State.complete_buf, Nat.add_assoc, Memory.read_writeBytes_at _ _ _ (by rw [List.length_append]; omega),
      psbytes k (by omega), List.getElem_append_right (by omega)]
    simp [hslen]

/-- Settles O49: the checks with the same answer may fail in any order. -/
theorem assembleOrderOfChecks : Obligations.AssembleOrderOfChecks := by
  intro s
  simp only [exec_eq_finish, runOf, runAssemble]
  refine ⟨fun h => ?_, fun hheader hpayload himage => ⟨fun h => ?_, fun hheaderApart hpayloadApart h => ?_⟩⟩
  · rcases h with h | h | h
    · rw [if_pos h]
      rfl
    · rw [if_pos h, ite_self]
      rfl
    · rw [if_pos h, ite_self, ite_self]
      rfl
  · rw [if_neg (not_not.mpr hheader), if_neg (not_not.mpr hpayload), if_neg (not_not.mpr himage)]
    rcases h with h | h
    · rw [if_pos h]
      rfl
    · rw [if_pos h, ite_self]
      rfl
  · rw [if_neg (not_not.mpr hheader), if_neg (not_not.mpr hpayload), if_neg (not_not.mpr himage), if_neg hheaderApart,
      if_neg hpayloadApart]
    rcases h with h | h
    · rw [State.readBytes_eq_none h]
      rfl
    · rw [State.readBytes_eq_none h]
      cases s.buf.readBytes s.srcVal Config.hdrBytes <;> rfl

/-! ### HPARSE -/

/-- Byte sequences of one length are equal where their integers are (R9). -/
theorem eq_of_fromLe_eq {xs ys : List Byte} (hlen : xs.length = ys.length) (h : fromLe xs = fromLe ys) : xs = ys := by
  rw [← leBytes_fromLe xs, hlen, h, leBytes_fromLe]

/-- A tag stands in its place exactly if the field there is the tag's integer. -/
theorem tag_iff_field {hs tag : List Byte} {i : Nat} (htag : tag.length = 4) (hlen : i + 4 ≤ hs.length) :
    (hs.drop i).take 4 = tag ↔ field hs i 4 = fromLe tag := by
  refine ⟨fun h => by rw [field, h], fun h => eq_of_fromLe_eq ?_ h⟩
  rw [htag, List.length_take, List.length_drop]
  omega

/-- The strict-mode check on the header that was read is `TagsAt` on BUF. -/
theorem tagsMatch_iff {m : Memory} {f : Nat} {hs : List Byte} (hread : m.readBytes f 44 = some hs) :
    tagsMatch hs = true ↔ TagsAt m f := by
  have hlen := Memory.readBytes_length hread
  have hriff : m.memRead f 4 = some (field hs 0 4) := Memory.memRead_field (i := 0) hread (by decide)
  simp only [tagsMatch, Bool.and_eq_true, beq_iff_eq, and_assoc, TagsAt, hriff,
    Memory.memRead_field hread (show 8 + 4 ≤ 44 by decide), Memory.memRead_field hread (show 12 + 4 ≤ 44 by decide),
    Memory.memRead_field hread (show 36 + 4 ≤ 44 by decide), Option.some.injEq]
  rw [tag_iff_field rfl (by omega), tag_iff_field rfl (by omega), tag_iff_field rfl (by omega),
    tag_iff_field rfl (by omega)]
  rfl

/-- HDRk is the k-th field (R35). -/
theorem headerRegs_getElem (hs : List Byte) (k : Fin 13) :
    (headerRegs hs)[k] = BitVec.ofNat 32 (field hs (hdrFieldOffset k) (hdrFieldSize k)) := by
  fin_cases k <;> rfl

theorem hdrField_inside (k : Fin 13) : hdrFieldOffset k + hdrFieldSize k ≤ 44 ∧ hdrFieldSize k ≤ 4 := by
  revert k
  decide

/-- The register holds the field whole: no field is wider than 4 bytes. -/
theorem headerRegs_toNat (hs : List Byte) (k : Fin 13) :
    (headerRegs hs)[k].toNat = field hs (hdrFieldOffset k) (hdrFieldSize k) := by
  rw [headerRegs_getElem, BitVec.toNat_ofNat, Nat.mod_eq_of_lt]
  calc field hs (hdrFieldOffset k) (hdrFieldSize k) < 256 ^ hdrFieldSize k := field_lt _ _ _
    _ ≤ 256 ^ 4 := Nat.pow_le_pow_right (by decide) (hdrField_inside k).2

/-- HPARSE reads the header into the HDR registers; in strict mode the tags must match (R91). -/
theorem exec_hparse_reads {s : State} {hs : List Byte} (hcount : 44 ≤ s.countVal) (hin : s.inBuf s.srcVal s.countVal)
    (hread : s.buf.readBytes s.srcVal 44 = some hs) (htags : s.strict = true → tagsMatch hs = true) :
    exec .hparse s = .next (s.complete
      { dst := 0, bytes := [], hdr := some (headerRegs hs), res0 := s.srcVal + 44, res1 := s.countVal - 44 }) := by
  have hpass : ¬ (s.strict = true ∧ tagsMatch hs = false) := fun ⟨hstrict, hno⟩ => by
    rw [htags hstrict] at hno
    cases hno
  rw [exec_eq_finish, runOf, runHparse, if_neg (not_lt.mpr hcount), if_neg (not_not.mpr hin)]
  simp only [hread]
  rw [if_neg hpass]
  rfl

/-- Settles O50: HDRk holds the field, and no byte is stored. -/
theorem hparseReadsHeaderFields : Obligations.HparseReadsHeaderFields := by
  intro s hcount hin hwritten htags
  obtain ⟨hs, hread⟩ := hwritten.exists_readBytes
  have hsize : s.bufBytes < 2 ^ 32 := s.bufSize.isLt
  have hend : s.srcVal + s.countVal ≤ s.bufBytes := hin.resolve_left (by omega)
  have haddr : s.srcVal + 44 < 2 ^ 32 := by omega
  have hlen : s.countVal - 44 < 2 ^ 32 := by omega
  refine ⟨_, exec_hparse_reads hcount hin hread fun hstrict => (tagsMatch_iff hread).mpr (htags hstrict),
    s.complete_endsInSuccess _, s.complete_sameSetup _, Nat.mod_eq_of_lt haddr, Nat.mod_eq_of_lt hlen,
    fun k => ?_, fun _ => rfl⟩
  rw [Memory.memRead_field hread (hdrField_inside k).1, ← headerRegs_toNat]
  rfl

/-- Settles O51: each clause runs the rule up to the check that decides. -/
theorem hparseOrderOfChecks : Obligations.HparseOrderOfChecks := by
  intro s
  simp only [exec_eq_finish, runOf, runHparse]
  refine ⟨fun h => ?_, fun hcount => ⟨fun h => ?_, fun hin => ⟨fun h => ?_, fun hwritten hstrict h => ?_⟩⟩⟩
  · rw [if_pos h]
    rfl
  · rw [if_neg (not_lt.mpr hcount), if_pos h]
    rfl
  · rw [if_neg (not_lt.mpr hcount), if_neg (not_not.mpr hin), State.readBytes_eq_none h]
    rfl
  · obtain ⟨hs, hread⟩ := hwritten.exists_readBytes
    have hno : tagsMatch hs = false := by
      rwa [← tagsMatch_iff hread, Bool.not_eq_true] at h
    rw [if_neg (not_lt.mpr hcount), if_neg (not_not.mpr hin)]
    simp only [hread]
    rw [if_pos ⟨hstrict, hno⟩]
    rfl

end Sys2Proof.Machine
end

section
/-! QENC and QDEC, one at a time: what each stores where no check fails, and which check decides where one does
(R84, R85, R102). -/

namespace Sys2Proof.Machine

/-! ### Arrays whose elements are known -/

theorem Memory.readAll_map {m : Memory} {w : Nat} {ks : List Nat} {addr val : Nat → Nat}
    (h : ∀ k ∈ ks, m.memRead (addr k) w = some (val k)) : m.readAll w (ks.map addr) = some (ks.map val) := by
  induction ks with
  | nil => rfl
  | cons k ks ih =>
    obtain ⟨hk, hks⟩ := List.forall_mem_cons.mp h
    simp only [List.map_cons, Memory.readAll, hk, ih hks]

/-- An array of known elements, read (R47, R48). -/
theorem Memory.readAll_elemAddrs {m : Memory} {a w n : Nat} {val : Nat → Nat}
    (h : ∀ k < n, m.memRead (a + w * k) w = some (val k)) :
    m.readAll w (elemAddrs a w n) = some ((List.range n).map val) :=
  Memory.readAll_map fun k hk => h k (List.mem_range.mp hk)

/-- A stored array of known elements that fit their width is read back (R47, R48). -/
theorem Memory.memRead_arrayBytes_map {m : Memory} {d w n k : Nat} {val : Nat → Nat} (hk : k < n)
    (hval : val k < 256 ^ w) :
    (m.writeBytes d (arrayBytes w ((List.range n).map val))).memRead (d + w * k) w = some (val k) := by
  rw [Memory.memRead_arrayBytes m d w _ (i := k) (by simpa using hk)]
  simp [Nat.mod_eq_of_lt hval]

/-! ### QENC -/

theorem quantizeAll_map {ks : List Nat} {x : Nat → QWord} {q : Nat → Pcm} (h : ∀ k ∈ ks, quantize (x k) = some (q k)) :
    quantizeAll (ks.map fun k => (x k).toNat) = some (ks.map q) := by
  induction ks with
  | nil => rfl
  | cons k ks ih =>
    obtain ⟨hk, hks⟩ := List.forall_mem_cons.mp h
    simp only [List.map_cons, quantizeAll, BitVec.ofNat_toNat, BitVec.setWidth_eq, hk, ih hks]

/-- One sample that does not quantize makes the whole array NONFINITE (R84). -/
theorem quantizeAll_eq_none {ks : List Nat} {x : Nat → QWord} {k : Nat} (hk : k ∈ ks) (h : quantize (x k) = none) :
    quantizeAll (ks.map fun k => (x k).toNat) = none := by
  rw [← Option.not_isSome_iff_eq_none, quantizeAll_isSome]
  intro hall
  have hsome := hall _ (List.mem_map.mpr ⟨k, hk, rfl⟩)
  rw [BitVec.ofNat_toNat, BitVec.setWidth_eq, h] at hsome
  cases hsome

/-- QENC stores the quantized samples (R84). -/
theorem exec_qenc_eq {s : State} {x : Nat → QWord} {q : Nat → Pcm} (hin : s.inBuf s.srcVal (8 * s.countVal))
    (hout : s.inBuf s.dstVal (2 * s.countVal)) (hapart : ¬ overlaps s.dstVal (2 * s.countVal) s.srcVal (8 * s.countVal))
    (hread : ∀ k < s.countVal, s.buf.memRead (s.srcVal + 8 * k) 8 = some (x k).toNat)
    (hquant : ∀ k < s.countVal, quantize (x k) = some (q k)) :
    exec .qenc s = .next (s.complete
      { dst := s.dstVal, bytes := arrayBytes 2 ((List.range s.countVal).map fun k => (q k).toNat), hdr := none,
        res0 := 2 * s.countVal, res1 := 0 }) := by
  have hquantAll := quantizeAll_map fun k (hk : k ∈ List.range s.countVal) => hquant k (List.mem_range.mp hk)
  rw [exec_eq_finish, runOf, runQenc, if_neg (not_not.mpr hin), if_neg (not_not.mpr hout), if_neg hapart,
    Memory.readAll_elemAddrs hread]
  simp only [hquantAll, List.map_map]
  rfl

/-- Settles O42: `exec_qenc_eq` says what is stored, and each sample is read back whole. -/
theorem qencWritesPayload : Obligations.QencWritesPayload := by
  intro s x q hin hout hapart hread hquant
  have hcount : s.countVal < 2 ^ 32 := s.count.isLt
  have hsize : s.bufBytes < 2 ^ 32 := s.bufSize.isLt
  have hfit : 2 * s.countVal < 2 ^ 32 := by omega
  exact ⟨_, exec_qenc_eq hin hout hapart hread hquant, s.complete_endsInSuccess _, s.complete_sameSetup _, rfl,
    Nat.mod_eq_of_lt hfit, rfl, fun k hk => Memory.memRead_arrayBytes_map hk (q k).isLt,
    s.complete_array_sameOutside (by simp)⟩

/-- Settles O43: each clause runs the rule up to the check that decides. -/
theorem qencOrderOfChecks : Obligations.QencOrderOfChecks := by
  intro s
  simp only [exec_eq_finish, runOf, runQenc]
  refine ⟨fun h => ?_, fun hin => ⟨fun h => ?_, fun hout => ⟨fun h => ?_, fun hapart => ⟨fun h => ?_,
    fun x hread ⟨k, hk, h⟩ => ?_⟩⟩⟩⟩
  · rw [if_pos h]
    rfl
  · rw [if_neg (not_not.mpr hin), if_pos h]
    rfl
  · rw [if_neg (not_not.mpr hin), if_neg (not_not.mpr hout), if_pos h]
    rfl
  · rw [if_neg (not_not.mpr hin), if_neg (not_not.mpr hout), if_neg hapart,
      State.readAll_elemAddrs_eq_none (by decide) h]
    rfl
  · rw [if_neg (not_not.mpr hin), if_neg (not_not.mpr hout), if_neg hapart, Memory.readAll_elemAddrs hread]
    simp only [quantizeAll_eq_none (List.mem_range.mpr hk) h]
    rfl

/-! ### QDEC -/

/-- QDEC stores the dequantized samples (R85). -/
theorem exec_qdec_eq {s : State} {v : Nat → Pcm} (heven : s.countVal % 2 = 0) (hin : s.inBuf s.srcVal s.countVal)
    (hout : s.inBuf s.dstVal (8 * (s.countVal / 2)))
    (hapart : ¬ overlaps s.dstVal (8 * (s.countVal / 2)) s.srcVal s.countVal)
    (hread : ∀ k < s.countVal / 2, s.buf.memRead (s.srcVal + 2 * k) 2 = some (v k).toNat) :
    exec .qdec s = .next (s.complete
      { dst := s.dstVal, bytes := arrayBytes 8 ((List.range (s.countVal / 2)).map fun k => (dequantize (v k)).toNat),
        hdr := none, res0 := s.countVal / 2, res1 := 0 }) := by
  rw [exec_eq_finish, runOf, runQdec, if_neg (not_not.mpr heven)]
  simp only
  rw [if_neg (not_not.mpr hin), if_neg (not_not.mpr hout), if_neg hapart, Memory.readAll_elemAddrs hread]
  simp only [List.map_map, Function.comp_def, BitVec.ofNat_toNat, BitVec.setWidth_eq]
  rfl

/-- Settles O44: `exec_qdec_eq` says what is stored, and each sample is read back whole. -/
theorem qdecWritesSamples : Obligations.QdecWritesSamples := by
  intro s v heven hin hout hapart hread
  have hcount : s.countVal < 2 ^ 32 := s.count.isLt
  have hfit : s.countVal / 2 < 2 ^ 32 := by omega
  exact ⟨_, exec_qdec_eq heven hin hout hapart hread, s.complete_endsInSuccess _, s.complete_sameSetup _, rfl,
    Nat.mod_eq_of_lt hfit, rfl, fun k hk => Memory.memRead_arrayBytes_map hk (dequantize (v k)).isLt,
    s.complete_array_sameOutside (by simp)⟩

/-- Settles O45: each clause runs the rule up to the check that decides. -/
theorem qdecOrderOfChecks : Obligations.QdecOrderOfChecks := by
  intro s
  simp only [exec_eq_finish, runOf, runQdec]
  refine ⟨fun h => ?_, fun heven => ⟨fun h => ?_, fun hin => ⟨fun h => ?_, fun hout => ⟨fun h => ?_,
    fun hapart h => ?_⟩⟩⟩⟩
  · have hodd : s.countVal % 2 ≠ 0 := by omega
    rw [if_pos hodd]
    rfl
  · rw [if_neg (not_not.mpr heven), if_pos h]
    rfl
  · rw [if_neg (not_not.mpr heven), if_neg (not_not.mpr hin), if_pos h]
    rfl
  · rw [if_neg (not_not.mpr heven), if_neg (not_not.mpr hin), if_neg (not_not.mpr hout), if_pos h]
    rfl
  · have hbytes : 2 * (s.countVal / 2) = s.countVal := by omega
    rw [if_neg (not_not.mpr heven), if_neg (not_not.mpr hin), if_neg (not_not.mpr hout), if_neg hapart,
      State.readAll_elemAddrs_eq_none (by decide) (by rwa [hbytes])]
    rfl

end Sys2Proof.Machine
end

section
/-! Binary64 rounding and the quantizer: ties to even (R11), the overflow threshold (R81), subnormals (R83) and the
range of dequantize (R82). -/

namespace Sys2Proof.Machine

/-! ### Rounding -/

/-- Where another representable number is as near to the exact value, the significand is even (R11). -/
theorem Rounds.even_of_tie {b : QWord} {x y : ℚ} (h : Rounds b x) (hf : isFinite b = true) (hy : Representable y)
    (hne : y ≠ realValue b) (htie : |y - x| = |realValue b - x|) : mant b % 2 = 0 := by
  obtain ⟨neg, n, d, hd, rfl, rfl⟩ := h
  rcases Nat.eq_zero_or_pos n with rfl | hn
  · rw [roundMag_zero]
    cases neg <;> decide
  rw [isFinite_withSign (roundMag_le n d), decide_eq_true_iff] at hf
  rw [realValue_roundMag hn hd hf, ← sgn] at hne htie
  rw [mant_roundMag hn hf]
  set R := (roundedMant n d : ℚ) * (2 : ℚ) ^ lastPlace n d
  set Q := (n : ℚ) / d with hQ
  have hQ0 : 0 ≤ Q := by positivity
  have hsq : sgn neg * sgn neg = 1 := by cases neg <;> norm_num [sgn]
  have hyz : y = sgn neg * (sgn neg * y) := by rw [← mul_assoc, hsq, one_mul]
  set z := sgn neg * y with hz
  have htie' : |z - Q| = |R - Q| := by
    rwa [hyz, ← mul_sub, ← mul_sub, abs_sgn_mul, abs_sgn_mul] at htie
  have hz0 : 0 ≤ z := by
    by_contra hneg
    have hzero := rounded_nearest hn hd (m := 0) (e := 0) (by norm_num) (by norm_num)
    rw [Nat.cast_zero, zero_mul, zero_sub, abs_neg, ← hQ, abs_of_nonneg hQ0, ← htie',
      abs_of_nonpos (by linarith)] at hzero
    linarith
  obtain ⟨m, e, hm, he, habs⟩ := hy.abs_eq
  have hzm : z = m * (2 : ℚ) ^ e := by rw [← habs, ← abs_sgn_mul neg, ← hz, abs_of_nonneg hz0]
  refine rounded_even_of_tie hn hd hm he (fun heq => hne ?_) (hzm ▸ htie')
  rw [hyz, hzm, heq]

/-- Settles O36: the product is the exact one, rounded once. -/
theorem productIsNearest : Obligations.ProductIsNearest := by
  intro a b q _ _ _ hf
  have hround := mulRne_rounds a b
  exact ⟨hround.nearest hf _ (realValue_representable q), hround.even_of_tie hf (realValue_representable q)⟩

/-- Rounding to nearest does not pass a representable upper bound. -/
theorem IsNearest.le {r x y : ℚ} (h : IsNearest r x) (hy : Representable y) (hxy : x ≤ y) : r ≤ y := by
  by_contra! hlt
  have hdist := h y hy
  rw [abs_of_nonneg (by linarith), abs_of_nonneg (by linarith)] at hdist
  linarith

/-- Nor a representable lower bound. -/
theorem IsNearest.ge {r x y : ℚ} (h : IsNearest r x) (hy : Representable y) (hxy : y ≤ x) : y ≤ r := by
  by_contra! hlt
  have hdist := h y hy
  rw [abs_of_nonpos (by linarith), abs_of_nonpos (by linarith)] at hdist
  linarith

theorem zpow_representable {e : ℤ} (he : -1074 ≤ e) : Representable ((2 : ℚ) ^ e) :=
  ⟨1, e, by norm_num, he, by simp⟩

theorem Representable.neg {y : ℚ} (h : Representable y) : Representable (-y) := by
  obtain ⟨m, e, hm, he, rfl⟩ := h
  exact ⟨-m, e, by rwa [abs_neg], he, by push_cast; ring⟩

/-! ### The magnitude of a value by its fields -/

theorem abs_realValue (b : QWord) : |realValue b| = mant b * (2 : ℚ) ^ expo b := by
  rw [realValue_eq, abs_sgn_mul, abs_of_nonneg (by positivity)]

/-- Subnormals and zeros lie below 2^-1022 (R83). -/
theorem abs_realValue_of_expField_zero {b : QWord} (h : expField b = 0) : |realValue b| < (2 : ℚ) ^ (-1022 : ℤ) := by
  have hfrac : fracField b < 2 ^ 52 := by
    rw [fracField_eq]
    exact Nat.mod_lt _ (by decide)
  have hmant : (mant b : ℚ) < 2 ^ 52 := by
    rw [mant, if_pos h]
    exact_mod_cast hfrac
  rw [abs_realValue, expo, if_pos h]
  calc (mant b : ℚ) * (2 : ℚ) ^ (-1074 : ℤ) < 2 ^ 52 * (2 : ℚ) ^ (-1074 : ℤ) :=
        mul_lt_mul_of_pos_right hmant (zpow_pos two_pos _)
    _ = (2 : ℚ) ^ (-1022 : ℤ) := by rw [← scale_add]; rfl

/-! ### quantize: the vectors and the subnormals -/

/-- Settles O35: fifteen encodings, evaluated by the kernel. -/
theorem quantizeVectors : Obligations.QuantizeVectors := by
  unfold Obligations.QuantizeVectors
  decide +kernel

theorem trunc_eq_zero {b : QWord} (h : |realValue b| < 1) : trunc b = 0 := by
  have hmag : truncMag b = 0 := by
    rw [truncMag_eq_floor, ← abs_realValue]
    exact Nat.floor_eq_zero.mpr h
  simp [trunc, hmag]

/-- Settles O38: the product of a subnormal with 32767 stays far below 1, rounded or not. -/
theorem subnormalsQuantizeToZero : Obligations.SubnormalsQuantizeToZero := by
  intro b hb
  have hfin : isFinite b = true := by simp [isFinite, hb]
  have hsmall : |realValue b * 32767| < 1 / 2 := by
    have hval : |realValue b| < (2 : ℚ) ^ (-16 : ℤ) :=
      (abs_realValue_of_expField_zero hb).trans (zpow_lt_zpow_right₀ one_lt_two (by norm_num))
    rw [show (2 : ℚ) ^ (-16 : ℤ) = 1 / 65536 by norm_num] at hval
    rw [abs_mul, Nat.abs_ofNat]
    linarith
  have hfit : |realValue b * 32767| ≤ 2 ^ 53 := by linarith
  have hnear := (scaled_rounds b).nearest ((scaled_rounds b).isFinite_of_le hfit) 0 zero_representable
  have hproduct : |realValue (scaled b)| < 1 := by
    have htriangle := abs_sub_abs_le_abs_sub (realValue (scaled b)) (realValue b * 32767)
    rw [zero_sub, abs_neg] at hnear
    linarith
  rw [quantize_eq_trunc hfin hfit, trunc_eq_zero hproduct]
  rfl

/-! ### quantize: the threshold of NONFINITE -/

theorem quantize_eq_none_iff (b : QWord) :
    quantize b = none ↔ isFinite b = false ∨ ((2 : ℚ) ^ 54 - 1) * (2 : ℚ) ^ (970 : ℤ) ≤ |realValue b * 32767| := by
  have hscaled := (scaled_rounds b).isFinite_iff
  rw [← not_lt, ← hscaled]
  change (if isFinite b then if isFinite (scaled b) then some (wrap16 (trunc (scaled b))) else none else none) = none ↔
    _
  split_ifs with hb hp
  · simp [hb, hp]
  · simp [hb, hp]
  · simp [hb]

/-- The powers of two about the binade of the threshold, in units of `2^957`. -/
theorem scale_957 : ∃ P : ℚ, (2 : ℚ) ^ (957 : ℤ) = P ∧ 0 < P ∧ 2 * (2 : ℚ) ^ (956 : ℤ) = P ∧
    (2 : ℚ) ^ (958 : ℤ) = 2 * P ∧ (2 : ℚ) ^ (970 : ℤ) = 2 ^ 13 * P := by
  have h (a : ℕ) (b c : ℤ) (e : c = a + b) : (2 : ℚ) ^ c = 2 ^ a * 2 ^ b := by rw [e, scale_add]
  refine ⟨_, rfl, zpow_pos two_pos _, ?_, ?_, h 13 957 970 (by norm_num)⟩
  · rw [h 1 956 957 (by norm_num), pow_one]
  · rw [h 1 957 958 (by norm_num), pow_one]

/-- In the binade of the threshold the significands from `2^52 + 2^37 + 2^22 + 2^7` on overflow, below it none does, and
above it all do. -/
theorem overflow_iff_fields {b : QWord} (hb : expField b < 2047) :
    ((2 : ℚ) ^ 54 - 1) * (2 : ℚ) ^ (970 : ℤ) ≤ |realValue b * 32767| ↔
      2032 < expField b ∨ (expField b = 2032 ∧ 2 ^ 37 + 2 ^ 22 + 2 ^ 7 ≤ fracField b) := by
  obtain ⟨P, h957, hP, h956, h958, h970⟩ := scale_957
  rw [abs_mul, Nat.abs_ofNat, abs_realValue, h970]
  rcases lt_trichotomy (expField b) 2032 with hlt | heq | hgt
  · have hmant : (mant b : ℚ) ≤ 2 ^ 53 := by exact_mod_cast (mant_lt b).le
    have hexpo : expo b ≤ 956 := by
      unfold expo
      split <;> omega
    have hpow : (2 : ℚ) ^ expo b ≤ (2 : ℚ) ^ (956 : ℤ) := zpow_le_zpow_right₀ one_le_two hexpo
    have hval : (mant b : ℚ) * (2 : ℚ) ^ expo b ≤ 2 ^ 53 * (2 : ℚ) ^ (956 : ℤ) :=
      mul_le_mul hmant hpow (by positivity) (by positivity)
    generalize (2 : ℚ) ^ (956 : ℤ) = H at h956 hval
    refine iff_of_false (fun h => ?_) (by omega)
    linarith only [h, hval, h956, hP]
  · have hmant : mant b = 2 ^ 52 + fracField b := if_neg (by omega)
    have hexpo : expo b = 957 := by rw [expo, if_neg (by omega), heq]; rfl
    have hunits : ((2 : ℚ) ^ 54 - 1) * (2 ^ 13 * P) ≤ mant b * P * 32767 ↔
        ((2 : ℚ) ^ 54 - 1) * 2 ^ 13 ≤ mant b * 32767 := by
      rw [← mul_assoc, mul_right_comm (mant b : ℚ)]
      exact mul_le_mul_iff_left₀ hP
    have hnat : ((2 : ℚ) ^ 54 - 1) * 2 ^ 13 ≤ mant b * 32767 ↔ (2 ^ 54 - 1) * 2 ^ 13 ≤ mant b * 32767 := by
      rw [← Nat.cast_le (α := ℚ)]
      push_cast
      norm_num
    rw [hexpo, h957, hunits, hnat, hmant]
    omega
  · have hmant : (2 : ℚ) ^ 52 ≤ mant b := by
      have hhidden : 2 ^ 52 ≤ mant b := by
        rw [mant, if_neg (by omega)]
        omega
      exact_mod_cast hhidden
    have hexpo : 958 ≤ expo b := by
      rw [expo, if_neg (by omega)]
      omega
    have hpow : 2 * P ≤ (2 : ℚ) ^ expo b := h958 ▸ zpow_le_zpow_right₀ one_le_two hexpo
    have hval : 2 ^ 52 * (2 * P) ≤ (mant b : ℚ) * (2 : ℚ) ^ expo b :=
      mul_le_mul hmant hpow (by linarith only [hP]) (Nat.cast_nonneg _)
    refine iff_of_true ?_ (.inl hgt)
    linarith only [hval, hP]

/-- The low 63 bits are the two fields. -/
theorem toNat_mod_eq_fields (b : QWord) : b.toNat % 2 ^ 63 = expField b * 2 ^ 52 + fracField b := by
  rw [expField_eq, fracField_eq]
  omega

/-- Settles O37: the encoding 0x7F00002000400080 has the exponent field 2032 and the fraction `2^37 + 2^22 + 2^7`. -/
theorem nonfiniteExactlyFromThreshold : Obligations.NonfiniteExactlyFromThreshold := by
  intro b
  have hfrac : fracField b < 2 ^ 52 := by
    rw [fracField_eq]
    exact Nat.mod_lt _ (by decide)
  have hexp : expField b < 2 ^ 11 := by
    rw [expField_eq]
    exact Nat.mod_lt _ (by decide)
  rw [quantize_eq_none_iff, toNat_mod_eq_fields]
  rcases eq_or_ne (expField b) 2047 with hinf | hfin
  · exact iff_of_true (.inl (by simp [isFinite, hinf])) (by omega)
  · rw [overflow_iff_fields (by omega)]
    simp only [isFinite, hfin, ne_eq, not_false_eq_true, decide_true, Bool.true_eq_false, false_or]
    omega

/-! ### dequantize -/

theorem dequantize_min : dequantize (-32768) = 0xBFF0002000400080 := by decide

/-- The smallest sample is the only one below -32767. -/
theorem toInt_ge_of_ne_min {v : Pcm} (h : v ≠ -32768) : -32767 ≤ v.toInt := by
  have hlo : -32768 ≤ v.toInt := v.le_toInt
  have hne : v.toInt ≠ -32768 := fun heq => h (BitVec.eq_of_toInt_eq heq)
  omega

theorem toInt_div_le_one (v : Pcm) : (v.toInt : ℚ) / 32767 ≤ 1 := by
  have hhi : v.toInt < 32768 := v.toInt_lt
  have hle : (v.toInt : ℚ) ≤ 32767 := by exact_mod_cast Int.lt_add_one_iff.mp hhi
  rwa [div_le_one (by norm_num)]

theorem dequantize_le_one (v : Pcm) : realValue (dequantize v) ≤ 1 :=
  (dequantize_nearest v).le (by simpa using intCast_representable (n := 1) (by norm_num)) (toInt_div_le_one v)

/-- Every sample but the smallest gives at least -1, and the smallest gives less. -/
theorem dequantize_min_le (v : Pcm) : realValue 0xBFF0002000400080 ≤ realValue (dequantize v) := by
  rcases eq_or_ne v (-32768) with rfl | hne
  · rw [dequantize_min]
  · have hone : Representable (-1) := by simpa using intCast_representable (n := -1) (by norm_num)
    have hlow : realValue 0xBFF0002000400080 ≤ -1 := by
      rw [← dequantize_min]
      refine (dequantize_nearest _).le hone ?_
      rw [show (-32768 : Pcm).toInt = -32768 from rfl]
      norm_num
    have hge : (-32767 : ℚ) ≤ v.toInt := by exact_mod_cast toInt_ge_of_ne_min hne
    refine hlow.trans ((dequantize_nearest v).ge hone ?_)
    rw [le_div_iff₀ (by norm_num)]
    linarith

/-- A sample other than 0 gives a value of magnitude at least 2^-15. -/
theorem abs_dequantize_ge {v : Pcm} (hv : v ≠ 0) : (2 : ℚ) ^ (-15 : ℤ) ≤ |realValue (dequantize v)| := by
  have hrep : Representable ((2 : ℚ) ^ (-15 : ℤ)) := zpow_representable (by norm_num)
  have hpow : (2 : ℚ) ^ (-15 : ℤ) * 32767 ≤ 1 := by norm_num
  have hne : v.toInt ≠ 0 := fun h => hv (BitVec.eq_of_toInt_eq h)
  rcases lt_or_gt_of_ne hne with hneg | hpos
  · have hle : (v.toInt : ℚ) ≤ -1 := by exact_mod_cast Int.le_sub_one_of_lt hneg
    have hval := (dequantize_nearest v).le hrep.neg (by rw [div_le_iff₀ (by norm_num)]; linarith)
    exact le_trans (by linarith) (neg_le_abs _)
  · have hge : (1 : ℚ) ≤ v.toInt := by exact_mod_cast hpos
    have hval := (dequantize_nearest v).ge hrep (by rw [le_div_iff₀ (by norm_num)]; linarith)
    exact hval.trans (le_abs_self _)

theorem dequantize_not_subnormal {v : Pcm} (hv : v ≠ 0) : expField (dequantize v) ≠ 0 := by
  intro hzero
  have hscale : (2 : ℚ) ^ (-1022 : ℤ) ≤ (2 : ℚ) ^ (-15 : ℤ) := zpow_le_zpow_right₀ one_le_two (by norm_num)
  exact absurd (abs_dequantize_ge hv) (not_le.mpr ((abs_realValue_of_expField_zero hzero).trans_le hscale))

/-- Settles O40: `dequantize v` is `v / 32767`, rounded once, and rounding passes neither 1 nor -1 nor ±2^-15. -/
theorem dequantizeIsNearestAndInRange : Obligations.DequantizeIsNearestAndInRange := by
  intro v
  refine ⟨isFinite_dequantize v, fun q _ => dequantize_nearest v _ (realValue_representable q), dequantize_min_le v,
    dequantize_le_one v, ?_, dequantize_not_subnormal⟩
  rintro rfl
  decide

end Sys2Proof.Machine
end
